-- ==== Sys2Proof/Word.lean ====
section
/-! DEFINITION. The widths the spec gives its data (spec/00_scope.md R7, R8; spec/20_memory.md R60). -/

namespace Sys2Proof

/-- A `u8`: one entry of `MSG`, `ECC`, `EXP` or `LOG` (R21, R22, R31, R32). -/
abbrev Byte := BitVec 8

/-- A `u16`: a field-element cell, `ELEM_W` = 16 bits (R7), and the width of `OPA`, `OPB`, `RES` (R24, R25). -/
abbrev Cell := BitVec 16

/-- A `u32`: the bus word, `BUS_W` = 32 (R7), and the width of `NCW`, `MLEN`, `ECCLEN` and a command word. -/
abbrev Word := BitVec 32

/-- A byte offset from `BASE`. The port carries 0 <= addr < 4096 and no other can be presented (R60, R65). -/
abbrev Offset := BitVec 12

end Sys2Proof
end

