-- ==== Sys2Proof/Config.lean ====
section
/-! DEFINITION. The parameters of spec/00_scope.md R7, and the values the spec leaves open, each an opaque
constant, so that no proof can see what it is (spec/93_implementation_defined.md U1, U2, U4, U13). -/

namespace Sys2Proof.Config

/-- `PRIM_POLY` = 0x11D (R7). -/
def primPoly : Nat := 0x11D

/-- `ALPHA` = 0x02 (R7, R111). -/
def alpha : Byte := 0x02

/-- `POLY_CAP`: the cells of a polynomial, and the entries of `MSG` and `ECC` (R7, R31, R32, R33). -/
def polyCap : Nat := 255

/-- `N_MAX_GEN`: the largest `num_codewords` that GENPOLY accepts (R7, R151). -/
def nMaxGen : Nat := 254

@[simp] theorem polyCap_eq : polyCap = 255 := rfl

@[simp] theorem nMaxGen_eq : nMaxGen = 254 := rfl

/-- `ZERO` = 0xFFFF, the additive identity in exponent form (R7, R12). -/
def zeroElem : Cell := 0xFFFF

/-- `BASE` in units of 4096 bytes: OPEN, the platform's (R7, U13). Free value: log entry 7. -/
opaque basePage : Nat

/-- `BASE`, a multiple of 4096 (R7). No rule depends on its value. -/
def base : Nat := 4096 * basePage

/-- `LOG[0]`, which the source calls undefined and no rule reads (R22, U1). Free value: log entry 6. -/
opaque logOfZero : Byte

/-- What entry `i` of `MSG` holds after the reset numbered `epoch`, until it is written
(R40, U2). Free value: log entry 1. -/
opaque msgAfterReset : (epoch i : Nat) → Byte

/-- What entry `i` of `ECC` holds after the reset numbered `epoch`, until it is written
(R40, U2). Free value: log entry 1. -/
opaque eccAfterReset : (epoch i : Nat) → Byte

/-- What cell `k` of `PG` holds after the reset numbered `epoch`, until it is written; not necessarily
an element (R40, U2). Free value: log entry 1. -/
opaque pgAfterReset : (epoch k : Nat) → Cell

/-- The read data of the read answered `ERROR` that is numbered `draw` (R62, U4). Free value: log entry 2. -/
opaque errorReadData : (draw : Nat) → Word

end Sys2Proof.Config
end

