-- ==== Sys2Proof/Syntax.lean ====
section
/-! DEFINITION. The six commands, the registers of the map, what the host can do to the core, and the lines
of a host script (spec/30_encoding.md R92, R93, R96, R97; spec/20_memory.md R61). -/

namespace Sys2Proof

/-- The six commands (R93). Every operand is implicit (R92), so no constructor takes an argument. -/
inductive Instr where
  /-- R117: convert `OPA` from exponent form to value form. -/
  | toval
  /-- R118: convert `OPA` from value form to exponent form. -/
  | toexp
  /-- R133: the field product of `OPA` and `OPB`. -/
  | gfmul
  /-- R134: the field sum of `OPA` and `OPB`. -/
  | gfadd
  /-- R150: the generator polynomial of degree `NCW`. -/
  | genpoly
  /-- R170: the `NCW` correction codewords of `MSG[0..MLEN-1]`. -/
  | encode
  deriving DecidableEq, Repr

/-- The registers of the host register space (R61). The arrays have indices 0..254. -/
inductive Reg where
  | cmd | status | opa | opb | res | ncw | mlen | ecclen
  | msg (i : Fin 255)
  | ecc (i : Fin 255)
  | pg (i : Fin 255)
  deriving DecidableEq, Repr

/-- What the one host can do to one core (R10, R16, R238): a bus read, a bus write, the reset input. -/
inductive HostEvent where
  /-- `MemRead(off, 4)` (R10). -/
  | read (off : Offset)
  /-- `MemWrite(off, 4, data)` (R10). -/
  | write (off : Offset) (data : Word)
  /-- The platform applies the reset input (R230). -/
  | reset
  deriving DecidableEq, Repr

/-- One line of a host script (R96), the pseudo-instructions of R97 among them. -/
inductive ScriptLine where
  /-- `WR <reg>, <value>` -/
  | wr (r : Reg) (v : Word)
  /-- `RD <reg>` -/
  | rd (r : Reg)
  /-- A mnemonic line. -/
  | command (i : Instr)
  /-- `SETN n` -/
  | setn (n : Word)
  /-- `LDMSG b0, b1, ...` -/
  | ldmsg (bytes : List Byte)
  /-- `EXPECT <reg>, v`: a read, and the claim that it gives `v`. -/
  | expect (r : Reg) (v : Word)
  deriving DecidableEq, Repr

end Sys2Proof
end

