-- ==== Sys2Proof/WellFormed.lean ====
section
/-! DEFINITION. Which syntax the spec admits. A command has no operand field, so every command is well formed
(spec/30_encoding.md R92); of the script lines only LDMSG limits its operands (R97). -/

namespace Sys2Proof

/-- Every command word is a fixed constant: nothing of it can be ill formed (R90, R92). -/
def Instr.wellFormed : Instr → Bool
  | .toval | .toexp | .gfmul | .gfadd | .genpoly | .encode => true

/-- R97: LDMSG takes L bytes with L >= 1 and L <= 255; the other lines take any register and any `u32`. -/
def ScriptLine.wellFormed : ScriptLine → Bool
  | .ldmsg bytes => decide (1 ≤ bytes.length) && decide (bytes.length ≤ Config.polyCap)
  | .command i => i.wellFormed
  | .wr _ _ | .rd _ | .setn _ | .expect _ _ => true

end Sys2Proof
end

