-- ==== Sys2Proof/Decode.lean ====
section
/-! DEFINITION. The command word (spec/30_encoding.md R90 to R95) and the address map
(spec/20_memory.md R61, R63 to R66), each read and written. -/

namespace Sys2Proof

/-! ## Command words -/

/-- Why a `u32` is no command word (R91, R94). Both reasons raise IllegalCommand. -/
inductive DecodeReject where
  /-- Bits 31:8 are not all zero. -/
  | reservedBitsSet
  /-- Bits 7:0 are none of the six opcodes. -/
  | unassignedOp
  deriving DecidableEq, Repr

/-- The `RSV` field, bits 31:8 (R90). -/
def commandRsv (w : Word) : BitVec 24 := w.extractLsb' 8 24

/-- The `OP` field, bits 7:0 (R90). -/
def commandOp (w : Word) : Byte := w.extractLsb' 0 8

/-- The opcode map, one row per command (R93). -/
def opcodeMap : List (Byte × Instr) :=
  [(0x01, .toval), (0x02, .toexp), (0x03, .gfmul), (0x04, .gfadd), (0x10, .genpoly), (0x11, .encode)]

/-- R91: the decoder. Total on every `u32`; it reads no state. -/
def decode (w : Word) : Except DecodeReject Instr :=
  if commandRsv w ≠ 0 then .error .reservedBitsSet
  else
    match opcodeMap.lookup (commandOp w) with
    | some i => .ok i
    | none => .error .unassignedOp

/-- The `OP` of a command (R93). -/
def opcodeOf : Instr → Byte
  | .toval => 0x01
  | .toexp => 0x02
  | .gfmul => 0x03
  | .gfadd => 0x04
  | .genpoly => 0x10
  | .encode => 0x11

/-- The word of a command: `RSV` = 0 above `OP` (R90, R93). -/
def encode (i : Instr) : Word := (0 : BitVec 24) ++ opcodeOf i

/-- The command the decoder reads from the table word `w` of `nbits` bits. A command is one whole bus word,
so no byte order arises (R71, R95). -/
def decodeTableWord (nbits w : Nat) : Option Instr :=
  let v := w % 2 ^ nbits
  if v < 2 ^ 32 then (decode (BitVec.ofNat 32 v)).toOption else none

/-! ## Offsets -/

/-- Why an access gets the response `ERROR` (R62). -/
inductive AccessError where
  /-- R63: the offset is no multiple of 4. -/
  | misaligned
  /-- R65: no register stands at the offset. -/
  | unmapped
  /-- R64: a read of `CMD`. -/
  | notReadable
  /-- R64: a write of a read-only register. -/
  | notWritable
  /-- R66: a 1 above the storage width of a narrow register. -/
  | dataTooWide
  deriving DecidableEq, Repr

/-- The access column of the map (R61). -/
inductive Rights where
  | ro | wo | rw
  deriving DecidableEq, Repr

/-- The offset column of the map (R61). -/
def regOffset : Reg → Offset
  | .cmd => 0x000
  | .status => 0x004
  | .opa => 0x008
  | .opb => 0x00C
  | .res => 0x010
  | .ncw => 0x014
  | .mlen => 0x018
  | .ecclen => 0x01C
  | .msg i => BitVec.ofNat 12 (0x400 + 4 * i)
  | .ecc i => BitVec.ofNat 12 (0x800 + 4 * i)
  | .pg i => BitVec.ofNat 12 (0xC00 + 4 * i)

/-- The platform's address of a register (R7 `BASE`, R61). -/
def regAddress (r : Reg) : Nat := Config.base + (regOffset r).toNat

/-- The access column of the map (R61, R64). -/
def regRights : Reg → Rights
  | .cmd => .wo
  | .opa | .opb | .ncw | .mlen | .msg _ => .rw
  | .status | .res | .ecclen | .ecc _ | .pg _ => .ro

/-- How many low bits of the write data a register takes (R61, R66): its storage width, and 32 for `CMD`,
which stores nothing and accepts every `u32`. -/
def regWriteWidth : Reg → Nat
  | .cmd | .ncw | .mlen | .ecclen => 32
  | .opa | .opb | .res | .pg _ => 16
  | .msg _ | .ecc _ => 8
  | .status => 3

/-- The register at index `(a - first) / 4` of an array whose first word stands at `first` (R61). -/
def arrayIndex (first a : Nat) : Option (Fin 255) :=
  if h : first ≤ a ∧ (a - first) / 4 < 255 then some ⟨(a - first) / 4, h.2⟩ else none

/-- The eight scalar registers by offset (R61). -/
def scalarAt (a : Nat) : Option Reg :=
  [(0x000, Reg.cmd), (0x004, .status), (0x008, .opa), (0x00C, .opb), (0x010, .res), (0x014, .ncw),
    (0x018, .mlen), (0x01C, .ecclen)].lookup a

/-- The register that stands at the aligned offset `a`, if one does (R61, R65). -/
def regAt (a : Nat) : Option Reg :=
  if a < 0x400 then scalarAt a
  else if a < 0x800 then (arrayIndex 0x400 a).map .msg
  else if a < 0xC00 then (arrayIndex 0x800 a).map .ecc
  else (arrayIndex 0xC00 a).map .pg

/-- The register an offset names: alignment first (R63), then the map (R61, R65). -/
def decodeOffset (off : Offset) : Except AccessError Reg :=
  if off.toNat % 4 ≠ 0 then .error .misaligned
  else
    match regAt off.toNat with
    | some r => .ok r
    | none => .error .unmapped

/-- The register a read reaches (R63, R64, R65). -/
def checkRead (off : Offset) : Except AccessError Reg :=
  match decodeOffset off with
  | .error e => .error e
  | .ok r => if regRights r = .wo then .error .notReadable else .ok r

/-- The register a write reaches (R63 to R66). -/
def checkWrite (off : Offset) (data : Word) : Except AccessError Reg :=
  match decodeOffset off with
  | .error e => .error e
  | .ok r =>
    if regRights r = .ro then .error .notWritable
    else if 2 ^ regWriteWidth r ≤ data.toNat then .error .dataTooWide
    else .ok r

end Sys2Proof
end

