-- ==== Sys2Proof/Machine/State.lean ====
section
/-! DEFINITION. The state of one GF256RS instance with its host (spec/10_state.md R20 to R41), as plain data. -/

namespace Sys2Proof.Machine

/-- The three faults a command can raise (spec/60_exceptions.md R200). Taking one is a next state
(R204 to R208), never a stop of the machine. -/
inductive CommandFault where
  /-- Code 1 (R201): GENPOLY, ENCODE. -/
  | invalidParameter
  /-- Code 2 (R202): TOVAL, TOEXP, GFMUL, GFADD. -/
  | invariantViolation
  /-- Code 3 (R203): a `CMD` word that is no command. -/
  | illegalCommand
  deriving DecidableEq, Repr

/-- The two bus responses (R60). -/
inductive Response where
  | okay | error
  deriving DecidableEq, Repr

/-- What the port gives the host back for one access: a response, and for a read the read data (R60). -/
structure Reply where
  response : Response
  rdata    : Option Word
  deriving DecidableEq, Repr

/-- An array of state by index, in one canonical form: the entries written since reset, indices strictly
rising. An unlisted index is one that nothing has written since reset (R40, U2). -/
abbrev Memory (w : Nat) := List (Nat × BitVec w)

/-- The canonical form of an array of 255 entries: indices strictly rising, each in 0..254 (R31, R32, R33). -/
abbrev Memory.wf {w : Nat} (m : Memory w) : Prop :=
  (m.map Prod.fst).Pairwise (· < ·) ∧ ∀ c ∈ m, c.1 < Config.polyCap

/-- Why the machine stops. There is no such reason: every access is answered and every command ends
(spec/70_reset_and_hazards.md R237), and a fault of a command is a next state (R217). -/
inductive Fault where
  deriving DecidableEq, Repr

/-- Why an instruction has no meaning. -/
inductive Refusal where
  /-- Raised by `exec` for an instruction whose meaning is not written. Safe: nothing is claimed of it.
  No arm raises it. -/
  | notModelled (mnemonic : String)
  deriving DecidableEq, Repr

/-- The state. `opa` to `pg` are the core's (R20); `epoch`, `draws`, `script` and `replies` are the model's. -/
structure State where
  /-- `OPA` (R24). -/
  opa : Cell
  /-- `OPB` (R24). -/
  opb : Cell
  /-- `RES` (R25). -/
  res : Cell
  /-- `NCW` (R26). -/
  ncw : Word
  /-- `MLEN` (R27). -/
  mlen : Word
  /-- `ECCLEN` (R28). -/
  ecclen : Word
  /-- `STATUS.CAUSE` (R30): the outcome of the latest command, `none` for code 0, completed without fault. -/
  cause : Option CommandFault
  /-- `STATUS.HALT` (R30). -/
  halt : Bool
  /-- `MSG` (R31), by index. -/
  msg : List Host.Cell
  /-- `ECC` (R32), by index. -/
  ecc : List Host.Cell
  /-- `PG` (R33), by index: cell `k` is the coefficient of x^k. -/
  pg : List (Nat × Cell)
  /-- The model's: how many times reset has been applied. It numbers the free contents of `MSG`, `ECC`, `PG`. -/
  epoch : Nat
  /-- The model's: how many reads have been answered `ERROR`. It numbers their free read data. -/
  draws : Nat
  /-- The model's: the accesses the host has still to perform, the next one first (R23, R237). -/
  script : List HostEvent
  /-- The model's: what the host has got back so far, the latest reply first (R60). -/
  replies : List Reply
  deriving DecidableEq, Repr

/-- The state right after reset (R40), with a host that has no access to perform. `MSG`, `ECC` and `PG` are
unspecified: nothing is listed, and an unlisted entry reads as a free value of Config. -/
def State.reset : State where
  opa := 0
  opb := 0
  res := 0
  ncw := 0
  mlen := 0
  ecclen := 0
  cause := none
  halt := false
  msg := []
  ecc := []
  pg := []
  epoch := 0
  draws := 0
  script := []
  replies := []

end Sys2Proof.Machine
end

