-- ==== Sys2Proof/Machine/Field.lean ====
section
/-! DEFINITION. The four field functions, each with the check it makes on its arguments (spec/00_scope.md R12;
spec/40_gf_tables.md R115, R116; spec/41_gf_arith.md R130 to R132, R136). -/

namespace Sys2Proof.Machine

/-- `valid_elem(e)`: an exponent in 0..254, or `ZERO` (R12). -/
abbrev validElem (e : Cell) : Prop := e.toNat ≤ 254 ∨ e = Config.zeroElem

/-- `to_value(e)` (R115). The check comes first, so the reduction never changes its argument. -/
def toValue (e : Cell) : Except CommandFault Byte :=
  if ¬ validElem e then .error .invariantViolation
  else if e = Config.zeroElem then .ok 0
  else .ok (expTable (e.toNat % 255))

/-- `to_exponent(v)` (R116). -/
def toExponent (v : Cell) : Except CommandFault Cell :=
  if 255 < v.toNat then .error .invariantViolation
  else if v = 0 then .ok Config.zeroElem
  else .ok ((logTable v.toNat).setWidth 16)

/-- `add_exponents(a, b)`, the field product: both operands are checked before `ZERO` absorbs, and the sum is
exact before it is reduced (R130, R132). -/
def addExponents (a b : Cell) : Except CommandFault Cell :=
  if ¬ validElem a then .error .invariantViolation
  else if ¬ validElem b then .error .invariantViolation
  else if a = Config.zeroElem ∨ b = Config.zeroElem then .ok Config.zeroElem
  else .ok (BitVec.ofNat 16 ((a.toNat + b.toNat) % 255))

/-- `combine(a, b)`, the field sum: both operands are checked before `ZERO` is the identity, and there is no
reduction against 285 (R131, R132, R136). -/
def combine (a b : Cell) : Except CommandFault Cell :=
  if ¬ validElem a then .error .invariantViolation
  else if ¬ validElem b then .error .invariantViolation
  else if a = Config.zeroElem then .ok b
  else if b = Config.zeroElem then .ok a
  else
    (toValue a).bind fun x =>
    (toValue b).bind fun y =>
    toExponent ((x ^^^ y).setWidth 16)

end Sys2Proof.Machine
end

