-- ==== Sys2Proof/Machine/Ops.lean ====
section
/-! DEFINITION. The named operations over the state: arrays, registers, the outcome of a command, taking a
fault, reset. -/

namespace Sys2Proof.Machine

/-! ## Arrays (spec/10_state.md R31 to R33) -/

/-- The value written at index `i` since reset, if any. -/
def memLookup {w : Nat} : Memory w → Nat → Option (BitVec w)
  | [], _ => none
  | (j, x) :: m, i => if i = j then some x else memLookup m i

/-- Write `v` at index `i`, keeping the indices strictly rising. -/
def memWrite {w : Nat} (i : Nat) (v : BitVec w) : Memory w → Memory w
  | [] => [(i, v)]
  | (j, x) :: m =>
    if i < j then (i, v) :: (j, x) :: m
    else if i = j then (i, v) :: m
    else (j, x) :: memWrite i v m

/-- The values, numbered from `k` upward. -/
def numberFrom {w : Nat} (k : Nat) : List (BitVec w) → Memory w
  | [] => []
  | v :: vs => (k, v) :: numberFrom (k + 1) vs

/-- Write `vals` at indices 0, 1, ..., and keep every entry above them. -/
def memWritePrefix {w : Nat} (vals : List (BitVec w)) (m : Memory w) : Memory w :=
  numberFrom 0 vals ++ m.filter (fun c => decide (vals.length ≤ c.1))

/-- `MSG[i]` (R31). An entry nothing has written since reset is a free value that does not change (U2). -/
def readMsg (s : State) (i : Nat) : Byte := (memLookup s.msg i).getD (Config.msgAfterReset s.epoch i)

/-- `ECC[i]` (R32). An entry nothing has written since reset is a free value that does not change (U2). -/
def readEcc (s : State) (i : Nat) : Byte := (memLookup s.ecc i).getD (Config.eccAfterReset s.epoch i)

/-- `PG[k]` (R33). A cell nothing has written since reset is a free value that does not change (U2). -/
def readPg (s : State) (k : Nat) : Cell := (memLookup s.pg k).getD (Config.pgAfterReset s.epoch k)

/-! ## Register writes -/

/-- `OPA <- v` (R24). -/
def State.setOpa (s : State) (v : Cell) : State := { s with opa := v }

/-- `OPB <- v` (R24). -/
def State.setOpb (s : State) (v : Cell) : State := { s with opb := v }

/-- `RES <- v` (R25). -/
def State.setRes (s : State) (v : Cell) : State := { s with res := v }

/-- `NCW <- v` (R26). -/
def State.setNcw (s : State) (v : Word) : State := { s with ncw := v }

/-- `MLEN <- v` (R27). -/
def State.setMlen (s : State) (v : Word) : State := { s with mlen := v }

/-- `ECCLEN <- v` (R28). -/
def State.setEccLen (s : State) (v : Word) : State := { s with ecclen := v }

/-- `MSG[i] <- v` (R31). -/
def State.setMsg (s : State) (i : Nat) (v : Byte) : State := { s with msg := memWrite i v s.msg }

/-- `ECC[0..] <- bytes`; entries above keep what they held (R32). -/
def State.setEcc (s : State) (bytes : List Byte) : State := { s with ecc := memWritePrefix bytes s.ecc }

/-- `PG[0..] <- cells` (R33). -/
def State.setPg (s : State) (cells : List Cell) : State := { s with pg := memWritePrefix cells s.pg }

/-- The accesses the host has still to perform (R237). -/
def State.setScript (s : State) (l : List HostEvent) : State := { s with script := l }

/-- The port answers the host (R60). -/
def State.reply (s : State) (r : Response) (rdata : Option Word) : State :=
  { s with replies := ⟨r, rdata⟩ :: s.replies }

/-- The free values used up by one read answered `ERROR` (U4). -/
def State.countDraw (s : State) : State := { s with draws := s.draws + 1 }

/-! ## The outcome of a command (spec/60_exceptions.md) -/

/-- A command ended without a fault: `STATUS.CAUSE <- 0` (R91). -/
def State.complete (s : State) : State := { s with cause := none }

/-- Taking a fault, the machine's one exception entry: `STATUS.CAUSE` gets the code, InvariantViolation also
sets `STATUS.HALT`, and nothing else changes: no saved context, no vector (R204 to R208). There is no return
from a fault beside it (R212): the host issues its next access, and after an InvariantViolation only
`State.applyReset` lets the core go on. -/
def State.takeFault (s : State) (f : CommandFault) : State :=
  { s with cause := some f, halt := s.halt || decide (f = .invariantViolation) }

/-- One command, from its tests to its outcome (R91, R211): while `HALT` = 1 nothing happens (R207); else `body`
makes the command's own checks and writes, and its fault leaves the state as it was but for `STATUS` (R204). -/
def runCommand (body : State → Except CommandFault State) (s : State) : Host.Outcome State Fault Refusal :=
  if s.halt then .next s
  else
    match body s with
    | .ok t => .next t.complete
    | .error f => .next (s.takeFault f)

/-! ## Reset -/

/-- The reset input (spec/70_reset_and_hazards.md R230): every piece of the core's state at its value of R40,
`MSG`, `ECC`, `PG` unspecified anew. The host keeps its script and what it has got back. -/
def State.applyReset (s : State) : State :=
  { State.reset with epoch := s.epoch + 1, draws := s.draws, script := s.script, replies := s.replies }

end Sys2Proof.Machine
end

