-- ==== Sys2Proof/Machine/Operands.lean ====
section
/-! DEFINITION. The implicit operands of the commands (spec/30_encoding.md R92) and the checks GENPOLY and
ENCODE make on theirs. The checks on `OPA` and `OPB` are made by the field functions that read them (R132). -/

namespace Sys2Proof.Machine

/-- `OPA`, an element in exponent form (TOVAL, GFMUL, GFADD) or a byte in value form (TOEXP) (R24, R92). -/
abbrev operandA (s : State) : Cell := s.opa

/-- `OPB`, an element in exponent form (GFMUL, GFADD) (R24, R92). -/
abbrev operandB (s : State) : Cell := s.opb

/-- `n`, the number of correction codewords: all 32 bits of `NCW`, an exact natural (R26, R151). -/
abbrev codewordCount (s : State) : Nat := s.ncw.toNat

/-- `L`, the message length: all 32 bits of `MLEN`, an exact natural (R27, R171). -/
abbrev messageLength (s : State) : Nat := s.mlen.toNat

/-- `MSG[0], ..., MSG[L-1]`, the first and most significant codeword first (R31, R70). -/
def messageBytes (s : State) (L : Nat) : List Byte := (List.range L).map (readMsg s)

/-- GENPOLY raises InvalidParameter (R151). -/
abbrev genpolyParameterBad (n : Nat) : Prop := n = 0 ∨ Config.nMaxGen < n

/-- `check_encode_parameters(n, L)` raises InvalidParameter; the sum is exact (R171). -/
abbrev encodeParameterBad (n L : Nat) : Prop :=
  n = 0 ∨ Config.polyCap < n ∨ Config.polyCap < L + n ∨ L = 0

end Sys2Proof.Machine
end

