-- ==== Sys2Proof/Machine/GfArith.lean ====
section
/-! DEFINITION. GFMUL and GFADD (spec/41_gf_arith.md R133, R134). -/

namespace Sys2Proof.Machine

/-- GFMUL (R133): `RES <- add_exponents(OPA, OPB)`. -/
def execGfmul (s : State) : Host.Outcome State Fault Refusal :=
  runCommand (fun s => (addExponents (operandA s) (operandB s)).map s.setRes) s

/-- GFADD (R134): `RES <- combine(OPA, OPB)`. -/
def execGfadd (s : State) : Host.Outcome State Fault Refusal :=
  runCommand (fun s => (combine (operandA s) (operandB s)).map s.setRes) s

end Sys2Proof.Machine
end

