-- ==== Sys2Proof/Machine/GfTables.lean ====
section
/-! DEFINITION. TOVAL and TOEXP (spec/40_gf_tables.md R117, R118). -/

namespace Sys2Proof.Machine

/-- TOVAL (R117): `RES <- zext_16(to_value(OPA))`. -/
def execToval (s : State) : Host.Outcome State Fault Refusal :=
  runCommand (fun s => (toValue (operandA s)).map fun v => s.setRes (v.setWidth 16)) s

/-- TOEXP (R118): `RES <- to_exponent(OPA)`. -/
def execToexp (s : State) : Host.Outcome State Fault Refusal :=
  runCommand (fun s => (toExponent (operandA s)).map s.setRes) s

end Sys2Proof.Machine
end

