-- ==== Sys2Proof/Machine/Poly.lean ====
section
/-! DEFINITION. The operations over whole polynomials that the generator build and the division share
(spec/00_scope.md R13; spec/43_rs_encode.md R174, R176, R191). -/

namespace Sys2Proof.Machine

/-- A polynomial: 255 cells in exponent form, index 0 the constant term (R13, R33). The working files `PM` and
`PT` are values of this type inside a command and are carried nowhere (R34). -/
abbrev PolyFile := List Cell

/-- `count` cells that are `ZERO`. -/
def zeroCells (count : Nat) : PolyFile := List.replicate count Config.zeroElem

/-- `f` on every lane, from cell 0 up; the first fault ends it. -/
def mapLanes {α β : Type} (f : α → Except CommandFault β) : List α → Except CommandFault (List β)
  | [] => .ok []
  | a :: as => (f a).bind fun b => (mapLanes f as).map (b :: ·)

/-- `f` on every pair of lanes, from cell 0 up; the first fault ends it. -/
def zipLanes (f : Cell → Cell → Except CommandFault Cell) : PolyFile → PolyFile → Except CommandFault PolyFile
  | a :: as, b :: bs => (f a b).bind fun c => (zipLanes f as bs).map (c :: ·)
  | _, _ => .ok []

/-- `poly_shift(P, s)`, multiplication by x^s: cell j of the result is cell j - s of `P`, and `ZERO` below s (R174). -/
def polyShift (P : PolyFile) (s : Nat) : PolyFile :=
  (zeroCells s ++ P).take Config.polyCap

/-- `P[k]` (R9). -/
def polyCell (P : PolyFile) (k : Nat) : Cell := P.getD k Config.zeroElem

/-- `degree(P)`: the largest k with P[k] not `ZERO`, `none` when there is none (R13). -/
def degree : PolyFile → Option Nat
  | [] => none
  | c :: P =>
    match degree P with
    | some k => some (k + 1)
    | none => if c = Config.zeroElem then none else some 0

end Sys2Proof.Machine
end

