-- ==== Sys2Proof/Machine/Genpoly.lean ====
section
/-! DEFINITION. The generator-polynomial constructor and GENPOLY (spec/42_genpoly.md R150 to R153). -/

namespace Sys2Proof.Machine

/-- g_0(x) = x + alpha^0: exponent 0 in cells 0 and 1, `ZERO` above (R153). -/
def generatorStart : PolyFile := [0, 0] ++ zeroCells (Config.polyCap - 2)

/-- One lane of a pass: `combine(add_exponents(PT[j], i), PT[j-1])` (R153, R161). -/
def generatorLane (i : Nat) (cell low : Cell) : Except CommandFault Cell :=
  (addExponents cell (BitVec.ofNat 16 i)).bind fun m => combine m low

/-- Pass `i`: `G(x) * (x + alpha^i)`. `PT` is the copy of `G` from which lanes 0..i+1 are computed, lane -1 read
as `ZERO`; the lanes above are not touched (R153, R161). -/
def generatorPass (i : Nat) (G : PolyFile) : Except CommandFault PolyFile :=
  let PT := G
  (zipLanes (generatorLane i) (PT.take (i + 2)) (Config.zeroElem :: PT)).map (· ++ G.drop (i + 2))

/-- `count` passes, the first of them pass `i`. -/
def generatorPasses : (count i : Nat) → PolyFile → Except CommandFault PolyFile
  | 0, _, G => .ok G
  | count + 1, i, G => (generatorPass i G).bind (generatorPasses count (i + 1))

/-- `build_generator(n)` for 1 <= n <= 254: passes 1..n-1 (R153). -/
def buildGenerator (n : Nat) : Except CommandFault PolyFile := generatorPasses (n - 1) 1 generatorStart

/-- The checks and writes of GENPOLY (R150, R151). -/
def genpolyBody (s : State) : Except CommandFault State :=
  let n := codewordCount s
  if genpolyParameterBad n then .error .invalidParameter
  else (buildGenerator n).map s.setPg

/-- GENPOLY (R150). -/
def execGenpoly (s : State) : Host.Outcome State Fault Refusal := runCommand genpolyBody s

end Sys2Proof.Machine
end

