-- ==== Sys2Proof/Machine/RsEncode.lean ====
section
/-! DEFINITION. The Reed-Solomon systematic encoder and ENCODE (spec/43_rs_encode.md R170 to R184). -/

namespace Sys2Proof.Machine

/-- `load_message(L)` on the L message bytes: the first byte in cell L-1, the last in cell 0, `ZERO` above (R173). -/
def loadMessage (bytes : List Byte) : Except CommandFault PolyFile :=
  (mapLanes (fun b : Byte => toExponent (b.setWidth 16)) bytes.reverse).map fun cells =>
    cells ++ zeroCells (Config.polyCap - bytes.length)

/-- One iteration of the division at the tracked degree `cur`: the generator shifted and scaled into the working
copy `PT`, then added into `PM` (R178, R179, R180). -/
def divideStep (G : PolyFile) (n : Nat) (PM : PolyFile) (cur : Nat) : Except CommandFault PolyFile :=
  let lead := polyCell PM cur
  (mapLanes (fun c => addExponents c lead) (polyShift G (cur - n))).bind fun PT =>
  zipLanes combine PM PT

/-- `count` iterations, the first at the tracked degree `cur` (R181, R182). -/
def divideLoop (G : PolyFile) (n : Nat) : (count : Nat) → (PM : PolyFile) → (cur : Nat) → Except CommandFault PolyFile
  | 0, PM, _ => .ok PM
  | count + 1, PM, cur => (divideStep G n PM cur).bind fun PM' => divideLoop G n count PM' (cur - 1)

/-- `divide(M, G, n)`: no iteration for the zero polynomial (R177), else d - n + 1 of them (R176, R182). -/
def divide (M G : PolyFile) (n : Nat) : Except CommandFault PolyFile :=
  match degree M with
  | none => .ok M
  | some d => divideLoop G n (d - n + 1) M d

/-- The codewords: cells n-1 down to 0, each as a byte in value form (R184). -/
def extractCodewords (M : PolyFile) (n : Nat) : Except CommandFault (List Byte) :=
  mapLanes toValue (M.take n).reverse

/-- The checks and writes of ENCODE (R170). -/
def encodeBody (s : State) : Except CommandFault State :=
  let n := codewordCount s
  let L := messageLength s
  if encodeParameterBad n L then .error .invalidParameter
  else
    (buildGenerator n).bind fun G =>
    (loadMessage (messageBytes s L)).bind fun M =>
    (divide (polyShift M n) G n).bind fun R =>
    (extractCodewords R n).map fun bytes =>
      ((s.setPg G).setEcc bytes).setEccLen (BitVec.ofNat 32 n)

/-- ENCODE (R170). -/
def execEncode (s : State) : Host.Outcome State Fault Refusal := runCommand encodeBody s

end Sys2Proof.Machine
end

