-- ==== Sys2Proof/Machine/Dispatch.lean ====
section
/-! DEFINITION. The meaning of each command (spec/30_encoding.md R91, R93): one arm per constructor. -/

namespace Sys2Proof.Machine

def exec (i : Instr) (s : State) : Host.Outcome State Fault Refusal :=
  match i with
  | .toval => Sys2Proof.Machine.execToval s
  | .toexp => Sys2Proof.Machine.execToexp s
  | .gfmul => Sys2Proof.Machine.execGfmul s
  | .gfadd => Sys2Proof.Machine.execGfadd s
  | .genpoly => Sys2Proof.Machine.execGenpoly s
  | .encode => Sys2Proof.Machine.execEncode s

end Sys2Proof.Machine
end

