-- ==== Sys2Proof/Machine/Flags.lean ====
section
/-! DEFINITION. There are no condition flags (spec/10_state.md R37). The only status bits are the fields of
`STATUS`, laid out here as R30 gives them. -/

namespace Sys2Proof.Machine

/-- `STATUS.CAUSE`, bits 1:0 (R30, R200). -/
def causeCode : Option CommandFault → BitVec 2
  | none => 0
  | some .invalidParameter => 1
  | some .invariantViolation => 2
  | some .illegalCommand => 3

/-- `STATUS` as the host reads it: `CAUSE` in bits 1:0, `HALT` in bit 2, bits 31:3 read as 0 (R30). -/
def statusWord (s : State) : Word := (0 : BitVec 29) ++ BitVec.ofBool s.halt ++ causeCode s.cause

end Sys2Proof.Machine
end

