-- ==== Sys2Proof/Machine/Bus.lean ====
section
/-! DEFINITION. One access of the host at the port (spec/20_memory.md R60 to R69), the execution of a command
word among them (spec/30_encoding.md R91). -/

namespace Sys2Proof.Machine

/-- What a read of a register gives: its stored value, zero-extended (R67). `CMD` holds nothing, and the access
check turns a read of it away (R29, R64). -/
def readReg (s : State) : Reg → Word
  | .cmd => 0
  | .status => statusWord s
  | .opa => s.opa.setWidth 32
  | .opb => s.opb.setWidth 32
  | .res => s.res.setWidth 32
  | .ncw => s.ncw
  | .mlen => s.mlen
  | .ecclen => s.ecclen
  | .msg i => (readMsg s i).setWidth 32
  | .ecc i => (readEcc s i).setWidth 32
  | .pg k => (readPg s k).setWidth 32

/-- A read (R62, R67): it changes no state of the core. The data of a read answered `ERROR` is a free value (U4). -/
def busRead (off : Offset) (s : State) : Host.Outcome State Fault Refusal :=
  match checkRead off with
  | .ok r => .next (s.reply .okay (some (readReg s r)))
  | .error _ => .next (s.countDraw.reply .error (some (Config.errorReadData s.draws)))

/-- The host writes word `w` to `CMD` (R91): a command runs, any other word raises IllegalCommand, and while
`HALT` = 1 nothing happens. -/
def executeWord (w : Word) (s : State) : Host.Outcome State Fault Refusal :=
  match decode w with
  | .ok i => exec i s
  | .error _ => runCommand (fun _ => .error .illegalCommand) s

/-- The effect of an accepted write (R68). The access check turns a write of a read-only register away (R64). -/
def writeReg (r : Reg) (data : Word) (s : State) : Host.Outcome State Fault Refusal :=
  match r with
  | .cmd => executeWord data s
  | .opa => .next (s.setOpa (data.setWidth 16))
  | .opb => .next (s.setOpb (data.setWidth 16))
  | .ncw => .next (s.setNcw data)
  | .mlen => .next (s.setMlen data)
  | .msg i => .next (s.setMsg i (data.setWidth 8))
  | .status | .res | .ecclen | .ecc _ | .pg _ => .next s

/-- A write (R62, R68). The response of an accepted write is `OKAY`, whether a command completes or faults. -/
def busWrite (off : Offset) (data : Word) (s : State) : Host.Outcome State Fault Refusal :=
  match checkWrite off data with
  | .ok r =>
    match writeReg r data s with
    | .next t => .next (t.reply .okay none)
    | .fault f => .fault f
    | .refused f => .refused f
  | .error _ => .next (s.reply .error none)

/-- One event of the host, atomic together with the whole command it may start (R69). -/
def perform (e : HostEvent) (s : State) : Host.Outcome State Fault Refusal :=
  match e with
  | .read off => busRead off s
  | .write off data => busWrite off data s
  | .reset => .next s.applyReset

/-- The host performs its next access; with none left the core is idle and keeps its state (R16, R214, R231). -/
def hostStep (s : State) : Host.Outcome State Fault Refusal :=
  match s.script with
  | [] => .next s
  | e :: rest => perform e (s.setScript rest)

/-- `s` with the write of the command word `w` of `nbits` bits as the host's next access. -/
def nextCommandWord (s : State) (nbits w : Nat) : State :=
  s.setScript (.write (regOffset .cmd) (BitVec.ofNat 32 (w % 2 ^ nbits)) :: s.script)

end Sys2Proof.Machine
end

