-- ==== Sys2Proof/Machine/Script.lean ====
section
/-! DEFINITION. Host scripts and the accesses their lines denote (spec/30_encoding.md R96, R97). -/

namespace Sys2Proof.Machine

/-- `WR <reg>, <value>` (R96). -/
def writeTo (r : Reg) (v : Word) : HostEvent := .write (regOffset r) v

/-- `WR MSG[t], b` for the bytes from index `t` upward; at most 255 of them, the entries `MSG` has (R97). -/
def loadBytes (t : Nat) : List Byte → List HostEvent
  | [] => []
  | b :: bs =>
    if h : t < 255 then writeTo (.msg ⟨t, h⟩) (b.setWidth 32) :: loadBytes (t + 1) bs else []

/-- The accesses a script line denotes, in order (R96, R97). -/
def expandLine : ScriptLine → List HostEvent
  | .wr r v => [writeTo r v]
  | .rd r => [.read (regOffset r)]
  | .command i => [writeTo .cmd (encode i)]
  | .setn n => [writeTo .ncw n]
  | .ldmsg bytes => loadBytes 0 bytes ++ [writeTo .mlen (BitVec.ofNat 32 bytes.length)]
  | .expect r _ => [.read (regOffset r)]

/-- The accesses of a whole script, in order (R237). -/
def expandScript (lines : List ScriptLine) : List HostEvent := lines.flatMap expandLine

/-- The value EXPECT says its read gives (R97); the other lines say nothing. -/
def expectedData : ScriptLine → Option Word
  | .expect _ v => some v
  | .wr _ _ | .rd _ | .command _ | .setn _ | .ldmsg _ => none

end Sys2Proof.Machine
end

