-- ==== Sys2Proof/Machine/Step.lean ====
section
/-! DEFINITION. One step of the machine: one access of the host, with the whole command it may start
(spec/00_scope.md R16; spec/20_memory.md R69). -/

namespace Sys2Proof.Machine

/-- One step: the host's next access (R16, R69, R237). -/
def step (s : State) : Host.Outcome State Fault Refusal := Sys2Proof.Machine.hostStep s

/-- `s` with the write of that command word to `CMD` as the very next access of the host. There is no program
counter and no fetch (R23): a program is the host's list of accesses, placed from outside the core. -/
def State.withFetchWord (s : State) (nbits w : Nat) : State := Sys2Proof.Machine.nextCommandWord s nbits w

end Sys2Proof.Machine
end

