-- ==== Sys2Proof/Safety.lean ====
section
/-! DEFINITION. What counts as a safe state and a safe outcome, in the terms the statements use. -/

namespace Sys2Proof.Safety

open Sys2Proof.Machine

/-- The invariants of R39 and the canonical form of the arrays. (R39 (2), STATUS[31:3] = 0, is the layout of
`statusWord` and no field of State.) -/
structure StateInv (s : State) : Prop where
  /-- R39 (1): every cell of `PG` written since reset is an element. -/
  pgValid : ∀ c ∈ s.pg, validElem c.2
  /-- R39 (3). -/
  eccLenMax : s.ecclen.toNat ≤ 254
  /-- R39 (4): `HALT` = 1 implies `CAUSE` = 2. -/
  haltCause : s.halt = true → s.cause = some .invariantViolation
  /-- `MSG` is in canonical form. -/
  msgWf : Memory.wf s.msg
  /-- `ECC` is in canonical form. -/
  eccWf : Memory.wf s.ecc
  /-- `PG` is in canonical form. -/
  pgWf : Memory.wf s.pg

/-- The bytes that `ECCLEN` counts have been written since reset (R28, R235 item 4). -/
def EccCounted (s : State) : Prop := ∀ k < s.ecclen.toNat, (memLookup s.ecc k).isSome = true

/-- A polynomial of 255 cells, each an element: what R156 and R185 say every working polynomial is. -/
structure ValidPoly (P : PolyFile) : Prop where
  length : P.length = 255
  valid : ∀ c ∈ P, validElem c

/-- The latest command completed and the core is not halted: the premise and the goal R217 names for a claim
that a program computes something. -/
def Succeeded (s : State) : Prop := s.halt = false ∧ s.cause = none

/-- The core executes no command until reset (R207). -/
def Halted (s : State) : Prop := s.halt = true

end Sys2Proof.Safety
end

