-- ==== Sys2Proof/Certificates/Slice0/Obligations.lean ====
section
/-! DEFINITION. The statements for the provers, and the few reference definitions they are stated in: the byte
arithmetic of GF(256) as R110 and R111 give it (no table), the refused accesses by offset, the evaluation recipe
of R157, and what a command's operands and results are (R92). -/

namespace Sys2Proof.Reference

open Sys2Proof.Machine

/-! ## The field on bytes, without the tables -/

/-- The doubling step: multiplication of a byte by alpha (R111). -/
def xtime (v : Byte) : Byte :=
  if v.toNat < 128 then BitVec.ofNat 8 (v.toNat * 2) else BitVec.ofNat 8 ((v.toNat * 2) ^^^ Config.primPoly)

/-- alpha^i as a byte: `i` doublings of 1 (R111). -/
def alphaPow : Nat → Byte
  | 0 => 1
  | i + 1 => xtime (alphaPow i)

/-- `k` doublings of `a`. -/
def doublings (a : Byte) : Nat → Byte
  | 0 => a
  | k + 1 => xtime (doublings a k)

/-- The product of two bytes read as polynomials over GF(2), modulo the primitive polynomial (R110): the sum of
a * x^k over the bits k that `b` has. -/
def byteMul (a b : Byte) : Byte :=
  (List.range 8).foldl (fun acc k => if b.getLsbD k then acc ^^^ doublings a k else acc) 0

/-- A sequence of bytes as a polynomial, its first byte the highest coefficient, evaluated at alpha^i (R186). -/
def evalBytes (bytes : List Byte) (i : Nat) : Byte :=
  bytes.foldl (fun acc b => byteMul acc (alphaPow i) ^^^ b) 0

/-- R157's recipe: the `combine` of `add_exponents(P[k], (i*k) mod 255)` over k = 0..n. -/
def evalCells (P : Nat → Cell) (n i : Nat) : Except CommandFault Cell :=
  (List.range (n + 1)).foldlM
    (fun acc k => (addExponents (P k) (BitVec.ofNat 16 (i * k % 255))).bind fun term => combine acc term)
    Config.zeroElem

/-! ## The refused accesses, by offset (R61, R63 to R66) -/

/-- R65. -/
abbrev unmappedOffset (a : Nat) : Prop := (0x020 ≤ a ∧ a ≤ 0x3FC) ∨ a = 0x7FC ∨ a = 0xBFC ∨ a = 0xFFC

/-- The read-only offsets of the map (R61): `STATUS`, `RES`, `ECCLEN`, `ECC[i]`, `PG[i]`. -/
abbrev readOnlyOffset (a : Nat) : Prop :=
  a = 0x004 ∨ a = 0x010 ∨ a = 0x01C ∨ (0x800 ≤ a ∧ a ≤ 0xBF8) ∨ (0xC00 ≤ a ∧ a ≤ 0xFF8)

/-- A read that gets `ERROR`: misaligned, unmapped, or of `CMD` (R63, R64, R65). -/
abbrev readRefused (a : Nat) : Prop := a % 4 ≠ 0 ∨ unmappedOffset a ∨ a = 0x000

/-- A write that gets `ERROR`: misaligned, unmapped, of a read-only register, or too wide for `OPA`, `OPB` or
`MSG[i]` (R63 to R66). -/
abbrev writeRefused (a v : Nat) : Prop :=
  a % 4 ≠ 0 ∨ unmappedOffset a ∨ readOnlyOffset a ∨
  ((a = 0x008 ∨ a = 0x00C) ∧ 2 ^ 16 ≤ v) ∨ ((0x400 ≤ a ∧ a ≤ 0x7F8) ∧ 2 ^ 8 ≤ v)

/-! ## Commands -/

/-- The four commands of the arithmetic engine (R93). -/
def scalarCommands : List Instr := [.toval, .toexp, .gfmul, .gfadd]

/-- The six command words with their commands (R93). -/
def commandWords : List (Word × Instr) :=
  [(0x00000001, .toval), (0x00000002, .toexp), (0x00000003, .gfmul), (0x00000004, .gfadd),
    (0x00000010, .genpoly), (0x00000011, .encode)]

/-- `STATUS` as a number (R30): the code of `CAUSE`, and 4 when `HALT` = 1. -/
def statusNumber (cause : Option CommandFault) (halt : Bool) : Nat :=
  (match cause with
    | none => 0
    | some .invalidParameter => 1
    | some .invariantViolation => 2
    | some .illegalCommand => 3) + (if halt then 4 else 0)

/-- The parameters of GENPOLY are legal: `NCW` in 1..254 (R151). -/
abbrev genpolyLegal (s : State) : Prop := 1 ≤ s.ncw.toNat ∧ s.ncw.toNat ≤ 254

/-- The parameters of ENCODE are legal (R171); the sum is exact. -/
abbrev encodeLegal (s : State) : Prop :=
  1 ≤ s.ncw.toNat ∧ 1 ≤ s.mlen.toNat ∧ s.mlen.toNat + s.ncw.toNat ≤ 255

/-- The two states agree on what the command reads (R92). -/
def sameOperands (i : Instr) (s u : State) : Prop :=
  match i with
  | .toval | .toexp => u.opa = s.opa
  | .gfmul | .gfadd => u.opa = s.opa ∧ u.opb = s.opb
  | .genpoly => u.ncw = s.ncw
  | .encode => u.ncw = s.ncw ∧ u.mlen = s.mlen ∧ ∀ k < s.mlen.toNat, readMsg u k = readMsg s k

/-- The two states agree on what the command writes on success (R92). -/
def sameResults (i : Instr) (t v : State) : Prop :=
  match i with
  | .toval | .toexp | .gfmul | .gfadd => v.res = t.res
  | .genpoly => ∀ k < 255, readPg v k = readPg t k
  | .encode =>
    (∀ k < 255, readPg v k = readPg t k) ∧ v.ecclen = t.ecclen ∧
    ∀ k < t.ecclen.toNat, readEcc v k = readEcc t k

end Sys2Proof.Reference

open Sys2Proof Sys2Proof.Machine Sys2Proof.Safety Sys2Proof.Reference

/-! ## Encoding -/

/-- R93: decoding is the inverse of encoding for every well-formed command, and the decoder reads a command from a
word exactly when the word and the command are one of the six rows of the map. -/
def Obligations.DecodeAcceptsExactlyTheSixWords : Prop :=
  (∀ i : Instr, i.wellFormed = true → decode (encode i) = .ok i) ∧
  ∀ (w : Word) (i : Instr), decode w = .ok i ↔ (w, i) ∈ commandWords

/-- Sanity: the table words of three rows, and three words that are no command. -/
def Obligations.CommandWordsDecode : Prop :=
  decodeTableWord 32 0x00000003 = some .gfmul ∧ decodeTableWord 32 0x00000010 = some .genpoly ∧
  decodeTableWord 32 0x00000011 = some .encode ∧
  decode 0x00000000 = .error .unassignedOp ∧ decode 0x00000012 = .error .unassignedOp ∧
  decode 0x00000101 = .error .reservedBitsSet

/-- R61: an offset names a register exactly when it is that register's offset. -/
def Obligations.OffsetsAndRegistersAgree : Prop :=
  ∀ (off : Offset) (r : Reg), decodeOffset off = .ok r ↔ off = regOffset r

/-- R97: what the mnemonic lines and SETN stand for. -/
def Obligations.ScriptLinesAreBusWrites : Prop :=
  (∀ w i, (w, i) ∈ commandWords → expandLine (.command i) = [.write 0x000 w]) ∧
  ∀ n, expandLine (.setn n) = [.write 0x014 n]

/-- R97: running the accesses of LDMSG from any state puts the bytes in `MSG[0..L-1]` and L in `MLEN`, each access
answered `OKAY`, and changes nothing else. -/
def Obligations.LdmsgLoadsTheMessage : Prop :=
  ∀ (s : State) (bytes : List Byte), (ScriptLine.ldmsg bytes).wellFormed = true →
    ∃ t, Host.Core.run Sys2Proof.core (bytes.length + 1) (s.setScript (expandLine (.ldmsg bytes))) = .next t ∧
      t.mlen.toNat = bytes.length ∧ messageBytes t bytes.length = bytes ∧
      (∀ k, bytes.length ≤ k → readMsg t k = readMsg s k) ∧
      t = { s with msg := t.msg, mlen := t.mlen, script := [],
                   replies := List.replicate (bytes.length + 1) ⟨.okay, none⟩ ++ s.replies }

/-! ## Steps and runs -/

/-- R91: when the host's next access writes to `CMD` a word that decodes to `i`, the step is `exec i` at the state
with that access taken from the script, and the write is answered `OKAY`. -/
def Obligations.StepRunsTheDecodedCommand : Prop :=
  ∀ (s : State) (rest : List HostEvent) (w : Word) (i : Instr), decode w = .ok i →
    ∃ t, exec i (s.setScript rest) = .next t ∧
      step (s.setScript (.write 0x000 w :: rest)) = .next (t.reply .okay none)

/-- R16, R214: with no access of the host left the step changes nothing. (That the model steps at all then is its
own choice, log entry 5.) -/
def Obligations.IdleCoreKeepsItsState : Prop :=
  ∀ s : State, s.script = [] → step s = .next s

/-- R237, and the model's choice of log entry 4: from any state a run over the whole script ends with the script
exhausted, and every bus access in it has been answered. R237 speaks of bus accesses; that a script may also hold the
reset input, which keeps the script and the replies and has no reply of its own, is log entry 4 (DESIGN CHOICE). -/
def Obligations.EveryRunEndsWithEveryAccessAnswered : Prop :=
  ∀ s : State, ∃ t replies, Host.Core.run Sys2Proof.core s.script.length s = .next t ∧ t.script = [] ∧
    t.replies = replies ++ s.replies ∧ replies.length = (s.script.filter (· ≠ .reset)).length

/-- R40, R230: the reset input, in any state. What the host has still to do and has got back is kept, and `MSG`,
`ECC`, `PG` have no written entry: log entries 1 and 4. -/
def Obligations.ResetInputGivesTheResetValues : Prop :=
  ∀ (s : State) (rest : List HostEvent),
    ∃ t, step (s.setScript (.reset :: rest)) = .next t ∧
      t.opa = 0 ∧ t.opb = 0 ∧ t.res = 0 ∧ t.ncw = 0 ∧ t.mlen = 0 ∧ t.ecclen = 0 ∧
      t.cause = none ∧ t.halt = false ∧ (statusWord t).toNat = 0 ∧
      (∀ k, memLookup t.msg k = none ∧ memLookup t.ecc k = none ∧ memLookup t.pg k = none) ∧
      t.script = rest ∧ t.replies = s.replies

/-- R233 (the spec's own inference, marked derived): each command on the operands the reset leaves. -/
def Obligations.CommandsOnResetOperands : Prop :=
  ∀ s : State,
    exec .toval s.applyReset = .next { s.applyReset with res := 0x0001 } ∧
    exec .toexp s.applyReset = .next { s.applyReset with res := 0xFFFF } ∧
    exec .gfmul s.applyReset = .next { s.applyReset with res := 0 } ∧
    exec .gfadd s.applyReset = .next { s.applyReset with res := 0xFFFF } ∧
    exec .genpoly s.applyReset = .next { s.applyReset with cause := some .invalidParameter } ∧
    exec .encode s.applyReset = .next { s.applyReset with cause := some .invalidParameter }

/-! ## Invariants -/

/-- The reset state meets the invariants of R39 (the spec's own inference, marked derived), the canonical form of the
arrays that `StateInv` also holds (the model's, log entry 3), and `EccCounted`: the bytes `ECCLEN` counts (R28) have
been written since reset. -/
def Obligations.ResetStateMeetsTheInvariants : Prop := StateInv State.reset ∧ EccCounted State.reset

/-- Every step keeps the invariants of R39 (the spec's own inference, marked derived) and the canonical form of the
arrays (the model's, log entry 3). -/
def Obligations.EveryStepKeepsTheInvariants : Prop :=
  ∀ s t : State, StateInv s → step s = .next t → StateInv t

/-- Every step keeps `EccCounted`: the bytes `ECCLEN` counts (R28; R235 item 4) have been written since reset, that
is, are listed in `ECC` (the model's form, log entry 3). -/
def Obligations.EveryStepKeepsCountedCodewordsWritten : Prop :=
  ∀ s t : State, EccCounted s → step s = .next t → EccCounted t

/-- R39 (the spec's own inference, marked derived): the four invariants after any number of steps of any script
from reset. -/
def Obligations.ReachableStatesMeetTheInvariants : Prop :=
  ∀ (script : List HostEvent) (k : Nat) (t : State),
    Host.Core.run Sys2Proof.core k (State.reset.setScript script) = .next t →
      (∀ j c, memLookup t.pg j = some c → validElem c) ∧
      (statusWord t).extractLsb' 3 29 = 0 ∧
      t.ecclen.toNat ≤ 254 ∧
      (t.halt = true → t.cause = some .invariantViolation)

/-! ## The field -/

/-- R111: the doubling step is the product with alpha, and the tables listed in R113 and R114 are those of its
recurrence. (That the listing agrees is the spec's own inference, marked derived; that alpha is 0x02 is the spec's
choice, its decision D2: log entry 11.) -/
def Obligations.TablesFollowTheDoublingRecurrence : Prop :=
  (∀ v : Byte, byteMul v Config.alpha = xtime v) ∧
  expTable 0 = 1 ∧ (∀ i < 255, expTable (i + 1) = xtime (expTable i)) ∧
  ∀ i < 255, (logTable (expTable i).toNat).toNat = i

/-- R112 (the spec's own inference, marked derived): `EXP[0..254]` are pairwise different and exactly the bytes
1..255, one more doubling gives 1, and `LOG` on 1..255 is the inverse of `EXP` on 0..254. -/
def Obligations.AlphaHasOrder255 : Prop :=
  (∀ i < 255, ∀ j < 255, expTable i = expTable j → i = j) ∧
  (∀ v : Byte, v ≠ 0 ↔ ∃ i < 255, expTable i = v) ∧
  xtime (expTable 254) = 1 ∧ (∀ i, alphaPow i = expTable (i % 255)) ∧
  (∀ v : Byte, v ≠ 0 →
    (logTable v.toNat).toNat ≤ 254 ∧ expTable (logTable v.toNat).toNat = v) ∧
  ∀ i < 255, (logTable (expTable i).toNat).toNat = i

/-- R119 (that the laws hold of the tables, and the cases of `ZERO` and 0, are marked derived): the two conversions
are inverse to each other, from values and from exponents, `ZERO` and 0 included. -/
def Obligations.ConversionsAreInverse : Prop :=
  (∀ v : Cell, v.toNat ≤ 255 →
    ∃ e b, toExponent v = .ok e ∧ toValue e = .ok b ∧ b.setWidth 16 = v) ∧
  (∀ e : Cell, validElem e → ∃ b, toValue e = .ok b ∧ toExponent (b.setWidth 16) = .ok e)

/-- R110, R137 (2) (the spec's own inference, marked derived): the multiplier computes the product of polynomials
modulo 0x11D and the adder the xor, on the bytes the elements stand for. -/
def Obligations.ProductAndSumOnBytes : Prop :=
  ∀ a b : Cell, validElem a → validElem b →
    ∃ x y p q, toValue a = .ok x ∧ toValue b = .ok y ∧
      addExponents a b = .ok p ∧ toValue p = .ok (byteMul x y) ∧
      combine a b = .ok q ∧ toValue q = .ok (x ^^^ y)

/-- R137 (1), (3), (5) (the spec's own inference, marked derived): both operations commute and associate, exponent
0 is the identity of the product, and every element is its own additive inverse. -/
def Obligations.ProductAndSumAreCommutativeAndAssociative : Prop :=
  ∀ a b c : Cell, validElem a → validElem b → validElem c →
    addExponents a b = addExponents b a ∧ combine a b = combine b a ∧
    (addExponents a b).bind (addExponents · c) = (addExponents b c).bind (addExponents a ·) ∧
    (combine a b).bind (combine · c) = (combine b c).bind (combine a ·) ∧
    addExponents a 0 = .ok a ∧ combine a a = .ok Config.zeroElem

/-- R137 (4) (the spec's own inference, marked derived): the product distributes over the sum. -/
def Obligations.ProductDistributesOverSum : Prop :=
  ∀ a b c : Cell, validElem a → validElem b → validElem c →
    ∃ sum ab ac r, combine b c = .ok sum ∧ addExponents a b = .ok ab ∧ addExponents a c = .ok ac ∧
      addExponents a sum = .ok r ∧ combine ab ac = .ok r

/-- R135: `ZERO` is the identity of the sum and absorbs under the product, for valid operands; an invalid operand
faults all the same. -/
def Obligations.ZeroIsIdentityAndAbsorbs : Prop :=
  ∀ a : Cell,
    (validElem a →
      combine a Config.zeroElem = .ok a ∧ combine Config.zeroElem a = .ok a ∧
      addExponents a Config.zeroElem = .ok Config.zeroElem ∧
      addExponents Config.zeroElem a = .ok Config.zeroElem) ∧
    (¬ validElem a →
      combine a Config.zeroElem = .error .invariantViolation ∧
      combine Config.zeroElem a = .error .invariantViolation ∧
      addExponents a Config.zeroElem = .error .invariantViolation ∧
      addExponents Config.zeroElem a = .error .invariantViolation)

/-! ## The scalar commands -/

/-- R117: TOVAL, its word, its result for every element, and its fault for every other operand. -/
def Obligations.TovalGivesTheValue : Prop :=
  decode 0x00000001 = .ok .toval ∧
  ∀ s : State, s.halt = false →
    (s.opa = 0xFFFF → exec .toval s = .next { s with res := 0, cause := none }) ∧
    (s.opa.toNat ≤ 254 →
      exec .toval s = .next { s with res := (expTable s.opa.toNat).setWidth 16, cause := none }) ∧
    (255 ≤ s.opa.toNat → s.opa.toNat ≤ 0xFFFE →
      exec .toval s = .next { s with cause := some .invariantViolation, halt := true })

/-- R118: TOEXP, its word, its result for every byte, and its fault for every other operand. -/
def Obligations.ToexpGivesTheExponent : Prop :=
  decode 0x00000002 = .ok .toexp ∧
  ∀ s : State, s.halt = false →
    (s.opa = 0 → exec .toexp s = .next { s with res := 0xFFFF, cause := none }) ∧
    (1 ≤ s.opa.toNat → s.opa.toNat ≤ 255 →
      exec .toexp s = .next { s with res := (logTable s.opa.toNat).setWidth 16, cause := none }) ∧
    (256 ≤ s.opa.toNat →
      exec .toexp s = .next { s with cause := some .invariantViolation, halt := true })

/-- R133: GFMUL, its word, its result for every pair of elements, and its fault for every other pair. -/
def Obligations.GfmulAddsExponents : Prop :=
  decode 0x00000003 = .ok .gfmul ∧
  ∀ s : State, s.halt = false →
    (s.opa.toNat ≤ 254 → s.opb.toNat ≤ 254 →
      exec .gfmul s =
        .next { s with res := BitVec.ofNat 16 ((s.opa.toNat + s.opb.toNat) % 255), cause := none }) ∧
    (validElem s.opa → validElem s.opb → s.opa = 0xFFFF ∨ s.opb = 0xFFFF →
      exec .gfmul s = .next { s with res := 0xFFFF, cause := none }) ∧
    (¬ validElem s.opa ∨ ¬ validElem s.opb →
      exec .gfmul s = .next { s with cause := some .invariantViolation, halt := true })

/-- R134: GFADD, its word, its result for every pair of elements, and its fault for every other pair. -/
def Obligations.GfaddXorsValues : Prop :=
  decode 0x00000004 = .ok .gfadd ∧
  ∀ s : State, s.halt = false →
    (s.opa.toNat ≤ 254 → s.opb.toNat ≤ 254 → s.opa ≠ s.opb →
      exec .gfadd s = .next
        { s with res := (logTable (expTable s.opa.toNat ^^^ expTable s.opb.toNat).toNat).setWidth 16,
                 cause := none }) ∧
    (s.opa.toNat ≤ 254 → s.opb.toNat ≤ 254 → s.opa = s.opb →
      exec .gfadd s = .next { s with res := 0xFFFF, cause := none }) ∧
    (s.opa = 0xFFFF → validElem s.opb → exec .gfadd s = .next { s with res := s.opb, cause := none }) ∧
    (s.opb = 0xFFFF → validElem s.opa → exec .gfadd s = .next { s with res := s.opa, cause := none }) ∧
    (¬ validElem s.opa ∨ ¬ validElem s.opb →
      exec .gfadd s = .next { s with cause := some .invariantViolation, halt := true })

/-- The frame of TOVAL, TOEXP, GFMUL and GFADD: whenever one of them gives a next state, only `RES` and `STATUS` may
differ, and every entry of `MSG`, `ECC` and `PG` reads as before. -/
def Obligations.ScalarCommandsFrame : Prop :=
  ∀ (i : Instr) (s t : State), i ∈ scalarCommands → exec i s = .next t →
    t = { s with res := t.res, cause := t.cause, halt := t.halt } ∧
    ∀ k, readMsg t k = readMsg s k ∧ readEcc t k = readEcc s k ∧ readPg t k = readPg s k

/-! ## GENPOLY -/

/-- R154 (the spec's own inference, marked derived): GENPOLY completes for every `NCW` in 1..254. Cell n is
exponent 0 and every cell above it is `ZERO`, so the degree is n, and nothing but `PG` and `STATUS.CAUSE` is
written. -/
def Obligations.GenpolyBuildsAMonicPolynomial : Prop :=
  ∀ s : State, s.halt = false → genpolyLegal s →
    ∃ t, exec .genpoly s = .next t ∧ t = { s with pg := t.pg, cause := none } ∧
      readPg t s.ncw.toNat = 0 ∧
      (∀ k, s.ncw.toNat < k → k < 255 → readPg t k = Config.zeroElem) ∧
      ∀ k < 255, validElem (readPg t k)

/-- R155 (the spec's own inference, marked derived): the constant coefficient is exponent n(n-1)/2 mod 255, and
where that is 0. -/
def Obligations.GeneratorConstantCoefficient : Prop :=
  (∀ s : State, s.halt = false → genpolyLegal s →
    ∃ t, exec .genpoly s = .next t ∧
      (readPg t 0).toNat = s.ncw.toNat * (s.ncw.toNat - 1) / 2 % 255) ∧
  ∀ n, 1 ≤ n → n ≤ 254 → (n * (n - 1) / 2 % 255 = 0 ↔ n ∈ [1, 51, 85, 120, 136, 171, 205])

/-- R157 (that its property holds of the build of R153 is the spec's own inference, marked derived): the polynomial
GENPOLY leaves in `PG` vanishes at alpha^0, ..., alpha^(n-1), for every n in 1..254. -/
def Obligations.GeneratorVanishesAtItsRoots : Prop :=
  ∀ s : State, s.halt = false → genpolyLegal s →
    ∃ t, exec .genpoly s = .next t ∧
      ∀ i < s.ncw.toNat, evalCells (readPg t) s.ncw.toNat i = .ok Config.zeroElem

/-- R151: GENPOLY completes for `NCW` in 1..254 and raises InvalidParameter for every other `u32`. -/
def Obligations.GenpolyParameterRule : Prop :=
  ∀ s : State, s.halt = false →
    (genpolyLegal s → ∃ t, exec .genpoly s = .next t ∧ t.cause = none) ∧
    (¬ genpolyLegal s → exec .genpoly s = .next { s with cause := some .invalidParameter })

/-- The frame of GENPOLY: whenever it gives a next state, only `PG` and `STATUS.CAUSE` may differ, every entry of
`MSG` and `ECC` reads as before, and so does every index above the 255 cells stored. -/
def Obligations.GenpolyFrame : Prop :=
  ∀ s t : State, exec .genpoly s = .next t →
    t = { s with pg := t.pg, cause := t.cause } ∧
    (∀ k, readMsg t k = readMsg s k ∧ readEcc t k = readEcc s k) ∧
    ∀ k, 255 ≤ k → readPg t k = readPg s k

/-! ## ENCODE -/

/-- ENCODE completes for every legal pair of parameters: exactly `ECC[0..n-1]` are written, `ECCLEN` is n, and `PG`
is what GENPOLY would leave (R170, R184, R188). -/
def Obligations.EncodeCompletes : Prop :=
  ∀ s : State, s.halt = false → encodeLegal s →
    ∃ t, exec .encode s = .next t ∧
      t = { s with pg := t.pg, ecc := t.ecc, ecclen := s.ncw, cause := none } ∧
      (∀ k < s.ncw.toNat, (memLookup t.ecc k).isSome = true) ∧
      (∀ k, s.ncw.toNat ≤ k → readEcc t k = readEcc s k) ∧
      exec .genpoly s = .next { s with pg := t.pg, cause := none }

/-- R186 (the spec's own inference, marked derived): the message bytes followed by the codewords of ENCODE, as a
polynomial with the first byte its highest coefficient, vanish at alpha^0, ..., alpha^(n-1), in byte arithmetic
without the tables; the message is unchanged. -/
def Obligations.EncodeMakesASystematicCodeword : Prop :=
  ∀ s : State, s.halt = false → encodeLegal s →
    ∃ t, exec .encode s = .next t ∧ (∀ k, readMsg t k = readMsg s k) ∧
      ∀ i < s.ncw.toNat,
        evalBytes (messageBytes s s.mlen.toNat ++ (List.range s.ncw.toNat).map (readEcc t)) i = 0

/-- R171: when ENCODE raises InvalidParameter, with the exact sum; otherwise it completes. -/
def Obligations.EncodeParameterRule : Prop :=
  ∀ s : State, s.halt = false →
    ((s.ncw.toNat = 0 ∨ 255 < s.ncw.toNat ∨ 255 < s.mlen.toNat + s.ncw.toNat ∨ s.mlen.toNat = 0) →
      exec .encode s = .next { s with cause := some .invalidParameter }) ∧
    (¬ (s.ncw.toNat = 0 ∨ 255 < s.ncw.toNat ∨ 255 < s.mlen.toNat + s.ncw.toNat ∨ s.mlen.toNat = 0) →
      ∃ t, exec .encode s = .next t ∧ t.cause = none)

/-- R177: an all-zero message gives n codewords 0x00, without a fault. -/
def Obligations.AllZeroMessageGivesZeroCodewords : Prop :=
  ∀ s : State, s.halt = false → encodeLegal s → (∀ k < s.mlen.toNat, readMsg s k = 0) →
    ∃ t, exec .encode s = .next t ∧ t.cause = none ∧ t.ecclen = s.ncw ∧
      ∀ k < s.ncw.toNat, readEcc t k = 0

/-- R187 (the spec's own inference, marked derived): a leading zero byte changes no codeword. -/
def Obligations.LeadingZeroByteChangesNoCodeword : Prop :=
  ∀ s u : State, s.halt = false → u.halt = false → encodeLegal s → encodeLegal u → u.ncw = s.ncw →
    messageBytes u u.mlen.toNat = 0 :: messageBytes s s.mlen.toNat →
    ∃ t v, exec .encode s = .next t ∧ exec .encode u = .next v ∧
      ∀ k < s.ncw.toNat, readEcc v k = readEcc t k

/-- R194: ENCODE repeated at once changes nothing more. -/
def Obligations.RepeatedEncodeChangesNothing : Prop :=
  ∀ s : State, s.halt = false → encodeLegal s →
    ∃ t, exec .encode s = .next t ∧ exec .encode t = .next t

/-- R175: before the shift only cells 0..L-1 of the loaded message can differ from `ZERO`; after it `MSG[t]` sits in
cell n + L - 1 - t and every other cell is `ZERO`. -/
def Obligations.ShiftedMessageCells : Prop :=
  ∀ (bytes : List Byte) (n : Nat), 1 ≤ n → 1 ≤ bytes.length → bytes.length + n ≤ 255 →
    ∃ M, loadMessage bytes = .ok M ∧ (polyShift M n).length = 255 ∧
      (∀ k, bytes.length ≤ k → polyCell M k = Config.zeroElem) ∧
      (∀ (t : Nat) (ht : t < bytes.length),
        toExponent (bytes[t].setWidth 16) = .ok (polyCell (polyShift M n) (n + bytes.length - 1 - t))) ∧
      (∀ k < n, polyCell (polyShift M n) k = Config.zeroElem) ∧
      ∀ k, n + bytes.length ≤ k → polyCell (polyShift M n) k = Config.zeroElem

/-- R183 (the spec's own inference, marked derived): the division of any polynomial shifted by n, by the generator
of degree n, leaves `ZERO` in every cell from n up. -/
def Obligations.DivisionLeavesARemainderBelowN : Prop :=
  ∀ (n : Nat) (P : PolyFile), 1 ≤ n → n ≤ 254 → ValidPoly P →
    (∀ k, 254 - n < k → polyCell P k = Config.zeroElem) →
    ∃ G R, buildGenerator n = .ok G ∧ divide (polyShift P n) G n = .ok R ∧ ValidPoly R ∧
      ∀ k, n ≤ k → polyCell R k = Config.zeroElem

/-- The frame of ENCODE: whenever it gives a next state, only `PG`, `ECC`, `ECCLEN` and `STATUS.CAUSE` may differ,
every entry of `MSG` reads as before, `ECC` reads as before from index `NCW` up and `PG` above its 255 cells, and
when the command did not complete nothing but `STATUS.CAUSE` differs. -/
def Obligations.EncodeFrame : Prop :=
  ∀ s t : State, exec .encode s = .next t →
    t = { s with pg := t.pg, ecc := t.ecc, ecclen := t.ecclen, cause := t.cause } ∧
    (∀ k, readMsg t k = readMsg s k) ∧
    (∀ k, s.ncw.toNat ≤ k → readEcc t k = readEcc s k) ∧
    (∀ k, 255 ≤ k → readPg t k = readPg s k) ∧
    (t.cause ≠ none → t = { s with cause := t.cause })

/-! ## Every command -/

/-- R18: a command's outcome and results are a function of the operands it names; the two states may differ in
everything else. -/
def Obligations.ResultsDependOnOperandsOnly : Prop :=
  ∀ (i : Instr) (s u t : State), s.halt = false → u.halt = false → sameOperands i s u → exec i s = .next t →
    ∃ v, exec i u = .next v ∧ v.cause = t.cause ∧ v.halt = t.halt ∧ (t.cause = none → sameResults i t v)

/-- R200: which command can raise which fault. ENCODE and GENPOLY never raise InvariantViolation (R156, R185). -/
def Obligations.FaultsAreRaisedByTheirCommands : Prop :=
  ∀ (i : Instr) (s t : State), s.halt = false → exec i s = .next t →
    (t.cause = some .invalidParameter → i = .genpoly ∨ i = .encode) ∧
    (t.cause = some .invariantViolation → i ∈ scalarCommands) ∧
    t.cause ≠ some .illegalCommand

/-! ## Command words at the port -/

/-- R204 to R208: a command word that faults leaves the state as it was but for `STATUS`, and the write is
answered `OKAY`. -/
def Obligations.FaultingCommandWritesOnlyStatus : Prop :=
  ∀ (s t : State) (rest : List HostEvent) (w : Word) (f : CommandFault), s.halt = false →
    step (s.setScript (.write 0x000 w :: rest)) = .next t → t.cause = some f →
    t = { s with script := rest, cause := some f, halt := decide (f = .invariantViolation),
                 replies := ⟨.okay, none⟩ :: s.replies } ∧
    (statusWord t).toNat = statusNumber (some f) (decide (f = .invariantViolation))

/-- R94: every word that is not one of the six raises IllegalCommand and changes nothing else. -/
def Obligations.IllegalWordRaisesIllegalCommand : Prop :=
  ∀ (s : State) (rest : List HostEvent) (w : Word), s.halt = false → (∀ i, (w, i) ∉ commandWords) →
    ∃ t, step (s.setScript (.write 0x000 w :: rest)) = .next t ∧
      t = { s with script := rest, cause := some .illegalCommand, replies := ⟨.okay, none⟩ :: s.replies } ∧
      (statusWord t).toNat = 3

/-- R207: while `HALT` = 1 a write of any word to `CMD` is answered `OKAY` and changes nothing. -/
def Obligations.HaltedCoreIgnoresCommands : Prop :=
  ∀ (s : State) (rest : List HostEvent) (w : Word), s.halt = true →
    step (s.setScript (.write 0x000 w :: rest)) =
      .next { s with script := rest, replies := ⟨.okay, none⟩ :: s.replies }

/-- R209: an executed command overwrites `CAUSE`, whatever it was, and a bus access that is no write to `CMD` changes
no field of `STATUS`. -/
def Obligations.CauseIsTheOutcomeOfTheLatestCommand : Prop :=
  (∀ (s : State) (rest : List HostEvent) (w : Word) (c : Option CommandFault), s.halt = false →
    step ({ s with cause := c }.setScript (.write 0x000 w :: rest)) =
      step (s.setScript (.write 0x000 w :: rest))) ∧
  (∀ (s t : State) (rest : List HostEvent) (off : Offset),
    step (s.setScript (.read off :: rest)) = .next t → t.cause = s.cause ∧ t.halt = s.halt) ∧
  ∀ (s t : State) (rest : List HostEvent) (off : Offset) (v : Word), off ≠ 0x000 →
    step (s.setScript (.write off v :: rest)) = .next t → t.cause = s.cause ∧ t.halt = s.halt

/-- R102: `HALT` is left only by reset, and entered only when a command word runs a scalar command that raises
InvariantViolation. -/
def Obligations.HaltIsEnteredByViolationAndLeftByReset : Prop :=
  ∀ s t : State, step s = .next t →
    (s.halt = true → t.halt = false → ∃ rest, s.script = .reset :: rest) ∧
    (s.halt = false → t.halt = true →
      t.cause = some .invariantViolation ∧
      ∃ w i rest, s.script = .write 0x000 w :: rest ∧ decode w = .ok i ∧ i ∈ scalarCommands)

/-! ## The bus -/

/-- R62: which accesses get `ERROR` (R63 to R66) and that such an access changes no state of the core; every other
access gets `OKAY`. The read data of an `ERROR` is any value, and that `draws`, which numbers these free values, is
counted up by a refused read is the model's choice (log entry 2, DESIGN CHOICE). -/
def Obligations.RefusedAccessChangesNothing : Prop :=
  (∀ (s : State) (rest : List HostEvent) (off : Offset),
    (readRefused off.toNat →
      ∃ d, step (s.setScript (.read off :: rest)) =
        .next { s with script := rest, draws := s.draws + 1, replies := ⟨.error, some d⟩ :: s.replies }) ∧
    (¬ readRefused off.toNat →
      ∃ d, step (s.setScript (.read off :: rest)) =
        .next { s with script := rest, replies := ⟨.okay, some d⟩ :: s.replies })) ∧
  ∀ (s : State) (rest : List HostEvent) (off : Offset) (v : Word),
    (writeRefused off.toNat v.toNat →
      step (s.setScript (.write off v :: rest)) =
        .next { s with script := rest, replies := ⟨.error, none⟩ :: s.replies }) ∧
    (¬ writeRefused off.toNat v.toNat →
      ∃ t, step (s.setScript (.write off v :: rest)) = .next t ∧ t.replies = ⟨.okay, none⟩ :: s.replies)

/-- R67: what a read of each readable register gives, and that it changes no state of the core. -/
def Obligations.ReadsGiveTheStoredValue : Prop :=
  ∀ (s : State) (rest : List HostEvent),
    let reads (off : Offset) (d : Word) : Prop :=
      step (s.setScript (.read off :: rest)) =
        .next { s with script := rest, replies := ⟨.okay, some d⟩ :: s.replies }
    reads 0x004 (BitVec.ofNat 32 (statusNumber s.cause s.halt)) ∧
    reads 0x008 (s.opa.setWidth 32) ∧ reads 0x00C (s.opb.setWidth 32) ∧ reads 0x010 (s.res.setWidth 32) ∧
    reads 0x014 s.ncw ∧ reads 0x018 s.mlen ∧ reads 0x01C s.ecclen ∧
    ∀ i < 255,
      reads (BitVec.ofNat 12 (0x400 + 4 * i)) ((readMsg s i).setWidth 32) ∧
      reads (BitVec.ofNat 12 (0x800 + 4 * i)) ((readEcc s i).setWidth 32) ∧
      reads (BitVec.ofNat 12 (0xC00 + 4 * i)) ((readPg s i).setWidth 32)

/-- R68: what a write to each writable register does, `MSG[i]` entry by entry, and that a write to `CMD` of any word
executes it and is answered `OKAY`; also while `HALT` = 1. -/
def Obligations.WritesStoreTheData : Prop :=
  ∀ (s : State) (rest : List HostEvent) (v : Word),
    let writes (off : Offset) (t : State) : Prop :=
      step (s.setScript (.write off v :: rest)) =
        .next { t with script := rest, replies := ⟨.okay, none⟩ :: s.replies }
    (v.toNat < 2 ^ 16 → writes 0x008 { s with opa := v.extractLsb' 0 16 }) ∧
    (v.toNat < 2 ^ 16 → writes 0x00C { s with opb := v.extractLsb' 0 16 }) ∧
    writes 0x014 { s with ncw := v } ∧ writes 0x018 { s with mlen := v } ∧
    (∀ i < 255, v.toNat < 2 ^ 8 →
      ∃ t, writes (BitVec.ofNat 12 (0x400 + 4 * i)) t ∧ t = { s with msg := t.msg } ∧
        readMsg t i = v.extractLsb' 0 8 ∧ ∀ k, k ≠ i → readMsg t k = readMsg s k) ∧
    ∃ t, executeWord v (s.setScript rest) = .next t ∧ t.replies = s.replies ∧ writes 0x000 t

/-- R73: a write of data that fits to a readable and writable register, then a read of that register, gives the
data written; also while `HALT` = 1. -/
def Obligations.WrittenDataIsReadBack : Prop :=
  ∀ (s : State) (rest : List HostEvent) (r : Reg) (v : Word), regRights r = .rw →
    v.toNat < 2 ^ regWriteWidth r →
    ∃ t, Host.Core.run Sys2Proof.core 2
        (s.setScript (.write (regOffset r) v :: .read (regOffset r) :: rest)) = .next t ∧
      t.replies = ⟨.okay, some v⟩ :: ⟨.okay, none⟩ :: s.replies ∧ t.script = rest
end

