-- ==== Sys2Proof/Laws/Field.lean ====
section
/-! SUPPORT. The field functions on valid arguments: none of them faults, and each gives a valid element. -/

namespace Sys2Proof.Laws

open Sys2Proof.Machine

@[simp] theorem validElem_zeroElem : validElem Config.zeroElem := .inr rfl

theorem validElem_of_le {e : Cell} (h : e.toNat ≤ 254) : validElem e := .inl h

theorem ne_zeroElem_of_le {e : Cell} (h : e.toNat ≤ 254) : e ≠ Config.zeroElem := by
  rintro rfl; revert h; decide

/-- Every defined entry of `LOG` is an exponent (R114). -/
theorem logTable_le : ∀ v < 256, v ≠ 0 → (logTable v).toNat ≤ 254 := by decide +kernel

/-- `to_value` of an element (R115). -/
theorem toValue_valid {e : Cell} (h : validElem e) :
    toValue e = .ok (if e = Config.zeroElem then 0 else expTable e.toNat) := by
  unfold toValue
  rw [if_neg (not_not_intro h)]
  split
  · rfl
  · next hz =>
    have : e.toNat ≤ 254 := h.resolve_right hz
    rw [Nat.mod_eq_of_lt (by omega)]

theorem toValue_invalid {e : Cell} (h : ¬ validElem e) : toValue e = .error .invariantViolation := by
  simp only [toValue, if_pos h]

/-- `to_exponent` of a value in the byte range (R116). -/
theorem toExponent_valid {v : Cell} (h : v.toNat ≤ 255) :
    ∃ e, toExponent v = .ok e ∧ validElem e := by
  unfold toExponent
  rw [if_neg (by omega)]
  split
  · exact ⟨_, rfl, validElem_zeroElem⟩
  · next hz =>
    have h0 : v.toNat ≠ 0 := fun h0 => hz (BitVec.eq_of_toNat_eq (by simpa using h0))
    have hl := logTable_le v.toNat (by omega) h0
    refine ⟨_, rfl, validElem_of_le ?_⟩
    rw [BitVec.toNat_setWidth, Nat.mod_eq_of_lt (by omega)]
    exact hl

theorem toExponent_byte (b : Byte) : ∃ e, toExponent (b.setWidth 16) = .ok e ∧ validElem e := by
  refine toExponent_valid ?_
  have := b.isLt
  rw [BitVec.toNat_setWidth, Nat.mod_eq_of_lt (by omega)]
  omega

/-- `add_exponents` of two elements is an element (R130). -/
theorem addExponents_valid {a b : Cell} (ha : validElem a) (hb : validElem b) :
    ∃ c, addExponents a b = .ok c ∧ validElem c := by
  unfold addExponents
  rw [if_neg (not_not_intro ha), if_neg (not_not_intro hb)]
  split
  · exact ⟨_, rfl, validElem_zeroElem⟩
  · refine ⟨_, rfl, validElem_of_le ?_⟩
    have := Nat.mod_lt (a.toNat + b.toNat) (show 255 > 0 by decide)
    rw [BitVec.toNat_ofNat, Nat.mod_eq_of_lt (by omega)]
    omega

/-- `combine` of two elements is an element (R131). -/
theorem combine_valid {a b : Cell} (ha : validElem a) (hb : validElem b) :
    ∃ c, combine a b = .ok c ∧ validElem c := by
  unfold combine
  rw [if_neg (not_not_intro ha), if_neg (not_not_intro hb)]
  split
  · exact ⟨_, rfl, hb⟩
  · split
    · exact ⟨_, rfl, ha⟩
    · rw [toValue_valid ha, toValue_valid hb]
      exact toExponent_byte _

/-- `add_exponents` of two exponents (R130). -/
theorem addExponents_exponents {a b : Cell} (ha : a.toNat ≤ 254) (hb : b.toNat ≤ 254) :
    addExponents a b = .ok (BitVec.ofNat 16 ((a.toNat + b.toNat) % 255)) := by
  unfold addExponents
  rw [if_neg (not_not_intro (validElem_of_le ha)), if_neg (not_not_intro (validElem_of_le hb)),
    if_neg (by simp [ne_zeroElem_of_le ha, ne_zeroElem_of_le hb])]

/-- `ZERO` absorbs (R130). -/
theorem addExponents_zero {a b : Cell} (ha : validElem a) (hb : validElem b)
    (h : a = Config.zeroElem ∨ b = Config.zeroElem) : addExponents a b = .ok Config.zeroElem := by
  unfold addExponents
  rw [if_neg (not_not_intro ha), if_neg (not_not_intro hb), if_pos h]

/-- `ZERO` is the identity of `combine`, on the left (R131). -/
theorem combine_zero_left {b : Cell} (hb : validElem b) : combine Config.zeroElem b = .ok b := by
  unfold combine
  rw [if_neg (not_not_intro validElem_zeroElem), if_neg (not_not_intro hb), if_pos rfl]

/-- `ZERO` is the identity of `combine`, on the right (R131). -/
theorem combine_zero_right {a : Cell} (ha : validElem a) : combine a Config.zeroElem = .ok a := by
  unfold combine
  rw [if_neg (not_not_intro ha), if_neg (not_not_intro validElem_zeroElem)]
  split
  · next h => rw [h]
  · rw [if_pos rfl]

/-- `combine` of two exponents is the exponent of the xor of their bytes (R131). -/
theorem combine_exponents {a b : Cell} (ha : a.toNat ≤ 254) (hb : b.toNat ≤ 254) :
    combine a b = toExponent ((expTable a.toNat ^^^ expTable b.toNat).setWidth 16) := by
  unfold combine
  rw [if_neg (not_not_intro (validElem_of_le ha)), if_neg (not_not_intro (validElem_of_le hb)),
    if_neg (ne_zeroElem_of_le ha), if_neg (ne_zeroElem_of_le hb), toValue_valid (validElem_of_le ha),
    toValue_valid (validElem_of_le hb), if_neg (ne_zeroElem_of_le ha), if_neg (ne_zeroElem_of_le hb)]
  rfl

/-- The first invalid operand faults, whatever the other one is (R132). -/
theorem addExponents_invalid {a b : Cell} (h : ¬ validElem a ∨ ¬ validElem b) :
    addExponents a b = .error .invariantViolation := by
  unfold addExponents
  split
  · rfl
  · next ha => rw [if_pos (h.resolve_left (by simpa using ha))]

theorem combine_invalid {a b : Cell} (h : ¬ validElem a ∨ ¬ validElem b) :
    combine a b = .error .invariantViolation := by
  unfold combine
  split
  · rfl
  · next ha => rw [if_pos (h.resolve_left (by simpa using ha))]

end Sys2Proof.Laws
end

