-- ==== Sys2Proof/Laws/Poly.lean ====
section
/-! SUPPORT. The polynomial operations on valid polynomials: what each lane of a result is, its length, and that
nothing faults. -/

namespace Sys2Proof.Laws

open Sys2Proof.Machine Sys2Proof.Safety

/-! ## Lanes -/

theorem mapLanes_length {α β : Type} {f : α → Except CommandFault β} {as : List α} {bs : List β}
    (h : mapLanes f as = .ok bs) : bs.length = as.length := by
  induction as generalizing bs with
  | nil => cases h; rfl
  | cons a as ih =>
    simp only [mapLanes, Except.bind] at h
    split at h
    · cases h
    · cases hr : mapLanes f as with
      | error e => simp [hr, Except.map] at h
      | ok r =>
        simp only [hr, Except.map, Except.ok.injEq] at h
        subst h
        simp [ih hr]

/-- Lane `k` of the result is `f` of lane `k`. -/
theorem mapLanes_lane {α β : Type} {f : α → Except CommandFault β} {as : List α} {bs : List β}
    (h : mapLanes f as = .ok bs) (k : Nat) (hk : k < as.length) :
    f as[k] = .ok (bs[k]'(by rw [mapLanes_length h]; exact hk)) := by
  induction as generalizing bs k with
  | nil => simp at hk
  | cons a as ih =>
    simp only [mapLanes, Except.bind] at h
    split at h
    · cases h
    · next b hb =>
      cases hr : mapLanes f as with
      | error e => simp [hr, Except.map] at h
      | ok r =>
        simp only [hr, Except.map, Except.ok.injEq] at h
        subst h
        cases k with
        | zero => simpa using hb
        | succ k => simpa using ih hr k (by simpa using hk)

/-- A map whose lanes do not fault does not fault, and what holds of each lane's result holds of the result. -/
theorem mapLanes_ok {α β : Type} {f : α → Except CommandFault β} {as : List α} {Q : β → Prop}
    (h : ∀ a ∈ as, ∃ b, f a = .ok b ∧ Q b) : ∃ bs, mapLanes f as = .ok bs ∧ ∀ b ∈ bs, Q b := by
  induction as with
  | nil => exact ⟨[], rfl, by simp⟩
  | cons a as ih =>
    obtain ⟨b, hb, hq⟩ := h a (by simp)
    obtain ⟨bs, hbs, hqs⟩ := ih fun x hx => h x (by simp [hx])
    exact ⟨b :: bs, by simp [mapLanes, hb, hbs, Except.bind, Except.map], by simpa using ⟨hq, hqs⟩⟩

theorem zipLanes_length {f : Cell → Cell → Except CommandFault Cell} {P Q R : PolyFile}
    (h : zipLanes f P Q = .ok R) : R.length = min P.length Q.length := by
  induction P generalizing Q R with
  | nil => simp [zipLanes] at h; subst h; simp
  | cons a P ih =>
    cases Q with
    | nil => simp [zipLanes] at h; subst h; simp
    | cons b Q =>
      simp only [zipLanes, Except.bind] at h
      split at h
      · cases h
      · cases hr : zipLanes f P Q with
        | error e => simp [hr, Except.map] at h
        | ok r =>
          simp only [hr, Except.map, Except.ok.injEq] at h
          subst h
          simp [ih hr]

/-- Lane `k` of the result is `f` of the two lanes `k`. -/
theorem zipLanes_lane {f : Cell → Cell → Except CommandFault Cell} {P Q R : PolyFile}
    (h : zipLanes f P Q = .ok R) (k : Nat) (hp : k < P.length) (hq : k < Q.length) :
    f P[k] Q[k] = .ok (R[k]'(by rw [zipLanes_length h]; omega)) := by
  induction P generalizing Q R k with
  | nil => simp at hp
  | cons a P ih =>
    cases Q with
    | nil => simp at hq
    | cons b Q =>
      simp only [zipLanes, Except.bind] at h
      split at h
      · cases h
      · next c hc =>
        cases hr : zipLanes f P Q with
        | error e => simp [hr, Except.map] at h
        | ok r =>
          simp only [hr, Except.map, Except.ok.injEq] at h
          subst h
          cases k with
          | zero => simpa using hc
          | succ k => simpa using ih hr k (by simpa using hp) (by simpa using hq)

/-- A zip of elements by a function that keeps elements does not fault and gives elements. -/
theorem zipLanes_ok {f : Cell → Cell → Except CommandFault Cell} {P Q : PolyFile}
    (hf : ∀ a b, validElem a → validElem b → ∃ c, f a b = .ok c ∧ validElem c)
    (hP : ∀ c ∈ P, validElem c) (hQ : ∀ c ∈ Q, validElem c) :
    ∃ R, zipLanes f P Q = .ok R ∧ ∀ c ∈ R, validElem c := by
  induction P generalizing Q with
  | nil => exact ⟨[], by simp [zipLanes], by simp⟩
  | cons a P ih =>
    cases Q with
    | nil => exact ⟨[], by simp [zipLanes], by simp⟩
    | cons b Q =>
      simp only [List.forall_mem_cons] at hP hQ
      obtain ⟨c, hc, hv⟩ := hf a b hP.1 hQ.1
      obtain ⟨R, hR, hRv⟩ := ih hP.2 hQ.2
      exact ⟨c :: R, by simp [zipLanes, hc, hR, Except.bind, Except.map], by simpa using ⟨hv, hRv⟩⟩

/-! ## Shift and degree -/

@[simp] theorem zeroCells_length (k : Nat) : (zeroCells k).length = k := by simp [zeroCells]

theorem mem_zeroCells {k : Nat} {c : Cell} (h : c ∈ zeroCells k) : c = Config.zeroElem :=
  List.eq_of_mem_replicate h

theorem zeroCells_getElem? (k j : Nat) :
    (zeroCells k)[j]? = if j < k then some Config.zeroElem else none := by
  simp [zeroCells, List.getElem?_replicate]


/-- Cell `j` of the shifted polynomial, as R174 writes it. -/
theorem polyShift_cell (P : PolyFile) (s j : Nat) (hj : j < 255) :
    polyCell (polyShift P s) j = if s ≤ j then polyCell P (j - s) else Config.zeroElem := by
  simp only [polyCell, polyShift, List.getD_eq_getElem?_getD, List.getElem?_take, Config.polyCap_eq, hj, if_true]
  split
  · next h => rw [List.getElem?_append_right (by simpa using h)]; simp
  · next h =>
    rw [List.getElem?_append_left (by simpa using h)]
    simp only [zeroCells_getElem?]
    split <;> rfl

theorem polyShift_valid {P : PolyFile} (h : ValidPoly P) (s : Nat) : ValidPoly (polyShift P s) where
  length := by
    have := h.length
    simp only [polyShift, List.length_take, List.length_append, zeroCells_length, Config.polyCap_eq]
    omega
  valid c hc := by
    rcases List.mem_append.1 (List.mem_of_mem_take hc) with hc | hc
    · rw [mem_zeroCells hc]; exact validElem_zeroElem
    · exact h.valid c hc

theorem polyCell_valid {P : PolyFile} (h : ∀ c ∈ P, validElem c) (k : Nat) : validElem (polyCell P k) := by
  simp only [polyCell, List.getD_eq_getElem?_getD]
  cases hk : P[k]? with
  | none => exact validElem_zeroElem
  | some c => exact h c (List.mem_of_getElem? hk)

/-- No degree: every cell is `ZERO` (R13). -/
theorem degree_eq_none {P : PolyFile} : degree P = none ↔ ∀ c ∈ P, c = Config.zeroElem := by
  induction P with
  | nil => simp [degree]
  | cons c P ih =>
    simp only [degree, List.forall_mem_cons, ← ih]
    cases degree P with
    | some k => simp
    | none => by_cases hc : c = Config.zeroElem <;> simp [hc]

/-- The degree is the largest index whose cell is not `ZERO` (R13). -/
theorem degree_eq_some {P : PolyFile} {d : Nat} (h : degree P = some d) :
    polyCell P d ≠ Config.zeroElem ∧ ∀ k, d < k → polyCell P k = Config.zeroElem := by
  induction P generalizing d with
  | nil => simp [degree] at h
  | cons c P ih =>
    simp only [degree] at h
    cases hP : degree P with
    | some e =>
      simp only [hP, Option.some.injEq] at h
      subst h
      obtain ⟨h1, h2⟩ := ih hP
      refine ⟨by simpa [polyCell] using h1, fun k hk => ?_⟩
      obtain ⟨k, rfl⟩ : ∃ j, k = j + 1 := ⟨k - 1, by omega⟩
      simpa [polyCell] using h2 k (by omega)
    | none =>
      simp only [hP] at h
      split at h
      · cases h
      · next hc =>
        simp only [Option.some.injEq] at h
        subst h
        refine ⟨by simpa [polyCell] using hc, fun k hk => ?_⟩
        obtain ⟨k, rfl⟩ : ∃ j, k = j + 1 := ⟨k - 1, by omega⟩
        have hz := degree_eq_none.1 hP
        have hck : polyCell (c :: P) (k + 1) = (P[k]?).getD Config.zeroElem := by simp [polyCell]
        rw [hck]
        cases hk : P[k]? with
        | none => rfl
        | some x => exact hz x (List.mem_of_getElem? hk)

end Sys2Proof.Laws
end

