-- ==== Sys2Proof/Laws/Encoder.lean ====
section
/-! SUPPORT. The steps of the generator build and of the encoder on valid polynomials: each succeeds and gives a
valid polynomial again. -/

namespace Sys2Proof.Laws

open Sys2Proof.Machine Sys2Proof.Safety

/-! ## The generator build (R153) -/

theorem generatorStart_valid : ValidPoly generatorStart where
  length := by simp [generatorStart]
  valid c hc := by
    rcases List.mem_append.1 hc with hc | hc
    · have : c = 0 := by simpa using hc
      subst this; exact validElem_of_le (by decide)
    · rw [mem_zeroCells hc]; exact validElem_zeroElem

theorem generatorLane_valid {i : Nat} (hi : i ≤ 254) {a b : Cell} (ha : validElem a) (hb : validElem b) :
    ∃ c, generatorLane i a b = .ok c ∧ validElem c := by
  have hv : validElem (BitVec.ofNat 16 i) := validElem_of_le (by
    rw [BitVec.toNat_ofNat, Nat.mod_eq_of_lt (by omega)]; exact hi)
  obtain ⟨m, hm, hmv⟩ := addExponents_valid ha hv
  obtain ⟨c, hc, hcv⟩ := combine_valid hmv hb
  exact ⟨c, by simp [generatorLane, hm, hc, Except.bind], hcv⟩

/-- A pass gives, in lanes 0..i+1, `generatorLane` of the lane and the lane below, and leaves the lanes above. -/
theorem generatorPass_spec {i : Nat} (hi : i ≤ 253) {G : PolyFile} (hG : ValidPoly G) :
    ∃ G', generatorPass i G = .ok G' ∧ ValidPoly G' ∧
      (∀ j ≤ i + 1, generatorLane i (polyCell G j) (if j = 0 then Config.zeroElem else polyCell G (j - 1)) =
        .ok (polyCell G' j)) ∧
      ∀ j, i + 1 < j → polyCell G' j = polyCell G j := by
  have hlen : G.length = 255 := hG.length
  obtain ⟨R, hR, hRv⟩ := zipLanes_ok (f := generatorLane i)
    (fun a b ha hb => generatorLane_valid (by omega) ha hb)
    (P := G.take (i + 2)) (Q := Config.zeroElem :: G)
    (fun c hc => hG.valid c (List.mem_of_mem_take hc))
    (List.forall_mem_cons.2 ⟨validElem_zeroElem, hG.valid⟩)
  have hRl : R.length = i + 2 := by
    rw [zipLanes_length hR]; simp [hlen]; omega
  refine ⟨R ++ G.drop (i + 2), by simp [generatorPass, hR, Except.map], ⟨?_, ?_⟩, fun j hj => ?_, fun j hj => ?_⟩
  · simp [hRl, hlen]; omega
  · intro c hc
    rcases List.mem_append.1 hc with hc | hc
    · exact hRv c hc
    · exact hG.valid c (List.mem_of_mem_drop hc)
  · have hp : j < (G.take (i + 2)).length := by simp [hlen]; omega
    have hq : j < (Config.zeroElem :: G).length := by simp [hlen]; omega
    have := zipLanes_lane hR j hp hq
    have h1 : (G.take (i + 2))[j] = polyCell G j := by
      have : j < G.length := by omega
      simp [polyCell, this]
    have h2 : (Config.zeroElem :: G)[j] = if j = 0 then Config.zeroElem else polyCell G (j - 1) := by
      cases j with
      | zero => rfl
      | succ j =>
        have : j < G.length := by omega
        simp [polyCell, this]
    have h3 : polyCell (R ++ G.drop (i + 2)) j = R[j]'(by omega) := by
      have : j < R.length := by omega
      simp [polyCell, List.getElem?_append_left this, this]
    rw [h1, h2] at this
    rw [this, h3]
  · simp only [polyCell, List.getD_eq_getElem?_getD]
    rw [List.getElem?_append_right (by omega), hRl, List.getElem?_drop]
    congr 2
    omega

theorem generatorPasses_valid (count i : Nat) (hi : i + count ≤ 254) {G : PolyFile} (hG : ValidPoly G) :
    ∃ G', generatorPasses count i G = .ok G' ∧ ValidPoly G' := by
  induction count generalizing i G with
  | zero => exact ⟨G, rfl, hG⟩
  | succ count ih =>
    obtain ⟨G₁, h₁, hv₁, -, -⟩ := generatorPass_spec (i := i) (by omega) hG
    obtain ⟨G', h', hv'⟩ := ih (i + 1) (by omega) hv₁
    exact ⟨G', by simp [generatorPasses, h₁, h', Except.bind], hv'⟩

theorem buildGenerator_valid {n : Nat} (hn : 1 ≤ n ∧ n ≤ 254) :
    ∃ G, buildGenerator n = .ok G ∧ ValidPoly G :=
  generatorPasses_valid (n - 1) 1 (by omega) generatorStart_valid

/-! ## The encoder (R173 to R184) -/

theorem messageBytes_length (s : State) (L : Nat) : (messageBytes s L).length = L := by simp [messageBytes]

theorem loadMessage_valid {bytes : List Byte} (h : bytes.length ≤ 255) :
    ∃ M, loadMessage bytes = .ok M ∧ ValidPoly M := by
  obtain ⟨cells, hc, hv⟩ := mapLanes_ok (f := fun b : Byte => toExponent (b.setWidth 16))
    (as := bytes.reverse) (Q := validElem) (fun b _ => toExponent_byte b)
  have hl := mapLanes_length hc
  refine ⟨_, by simp [loadMessage, hc, Except.map]; rfl, ?_, fun c hm => ?_⟩
  · simp [hl]; omega
  · rcases List.mem_append.1 hm with hm | hm
    · exact hv c hm
    · rw [mem_zeroCells hm]; exact validElem_zeroElem

/-- One iteration: `T[k]` is the shifted generator's cell times `lead`, and `M[k]` becomes its field sum with `T[k]`
(R178 to R180). -/
theorem divideStep_spec {G PM : PolyFile} (hG : ValidPoly G) (hM : ValidPoly PM) (n cur : Nat) :
    ∃ PT PM', divideStep G n PM cur = .ok PM' ∧ ValidPoly PT ∧ ValidPoly PM' ∧
      (∀ k < 255,
        addExponents (polyCell (polyShift G (cur - n)) k) (polyCell PM cur) = .ok (polyCell PT k)) ∧
      ∀ k < 255, combine (polyCell PM k) (polyCell PT k) = .ok (polyCell PM' k) := by
  have hS := polyShift_valid hG (cur - n)
  obtain ⟨PT, hPT, hPTv⟩ := mapLanes_ok (f := fun c => addExponents c (polyCell PM cur))
    (as := polyShift G (cur - n)) (Q := validElem)
    (fun c hc => addExponents_valid (hS.valid c hc) (polyCell_valid hM.valid cur))
  have hPTl : PT.length = 255 := by rw [mapLanes_length hPT, hS.length]
  obtain ⟨R, hR, hRv⟩ := zipLanes_ok (f := combine) (fun a b ha hb => combine_valid ha hb) hM.valid hPTv
  have hRl : R.length = 255 := by rw [zipLanes_length hR, hM.length, hPTl]; simp
  have cell {P : PolyFile} (hP : P.length = 255) {k : Nat} (hk : k < 255) :
      polyCell P k = P[k]'(by omega) := by
    have : k < P.length := by omega
    simp [polyCell, this]
  refine ⟨PT, R, by simp [divideStep, hPT, hR, Except.bind], ⟨hPTl, hPTv⟩, ⟨hRl, hRv⟩, fun k hk => ?_, fun k hk => ?_⟩
  · rw [cell hS.length hk, cell hPTl hk]
    exact mapLanes_lane hPT k (by rw [hS.length]; exact hk)
  · rw [cell hM.length hk, cell hPTl hk, cell hRl hk]
    exact zipLanes_lane hR k (by rw [hM.length]; exact hk) (by rw [hPTl]; exact hk)

theorem divideLoop_valid {G PM : PolyFile} (hG : ValidPoly G) (hM : ValidPoly PM) (n count cur : Nat) :
    ∃ R, divideLoop G n count PM cur = .ok R ∧ ValidPoly R := by
  induction count generalizing PM cur with
  | zero => exact ⟨PM, rfl, hM⟩
  | succ count ih =>
    obtain ⟨_, PM', h', -, hv', -, -⟩ := divideStep_spec hG hM n cur
    obtain ⟨R, hR, hRv⟩ := ih hv' (cur - 1)
    exact ⟨R, by simp [divideLoop, h', hR, Except.bind], hRv⟩

theorem divide_valid {G M : PolyFile} (hG : ValidPoly G) (hM : ValidPoly M) (n : Nat) :
    ∃ R, divide M G n = .ok R ∧ ValidPoly R := by
  unfold divide
  cases degree M with
  | none => exact ⟨M, rfl, hM⟩
  | some d => exact divideLoop_valid hG hM n _ d

theorem extractCodewords_ok {M : PolyFile} (hM : ValidPoly M) {n : Nat} (hn : n ≤ 255) :
    ∃ bytes, extractCodewords M n = .ok bytes ∧ bytes.length = n := by
  obtain ⟨bytes, hb, -⟩ := mapLanes_ok (f := toValue) (as := (M.take n).reverse) (Q := fun _ => True)
    (fun c hc => ⟨_, toValue_valid (hM.valid c (List.mem_of_mem_take (List.mem_reverse.1 hc))), trivial⟩)
  refine ⟨bytes, hb, ?_⟩
  rw [mapLanes_length hb]
  simp [hM.length]
  omega

end Sys2Proof.Laws
end

