-- ==== Sys2Proof/Laws/Memory.lean ====
section
/-! SUPPORT. The arrays: reading after writing, the canonical form and that every operation keeps it, and that
equal arrays are equal data. -/

namespace Sys2Proof.Laws

open Sys2Proof.Machine

variable {w : Nat}

/-! ## Reading after writing -/

@[simp] theorem memLookup_memWrite_same (i : Nat) (v : BitVec w) (m : Memory w) :
    memLookup (memWrite i v m) i = some v := by
  induction m with
  | nil => simp [memWrite, memLookup]
  | cons c m ih =>
    obtain ⟨j, x⟩ := c
    simp only [memWrite]
    split
    · simp [memLookup]
    · split <;> simp_all [memLookup]

theorem memLookup_memWrite_other {i k : Nat} (h : k ≠ i) (v : BitVec w) (m : Memory w) :
    memLookup (memWrite i v m) k = memLookup m k := by
  induction m with
  | nil => simp [memWrite, memLookup, h]
  | cons c m ih =>
    obtain ⟨j, x⟩ := c
    simp only [memWrite]
    split
    · simp [memLookup, h]
    · split
      · subst i; simp [memLookup, h]
      · simp [memLookup, ih]

theorem memLookup_numberFrom (b : Nat) (vals : List (BitVec w)) (k : Nat) :
    memLookup (numberFrom b vals) k = if b ≤ k then vals[k - b]? else none := by
  induction vals generalizing b with
  | nil => simp [numberFrom, memLookup]
  | cons v vals ih =>
    simp only [numberFrom, memLookup, ih]
    rcases Nat.lt_trichotomy k b with h | h | h
    · rw [if_neg (by omega), if_neg (by omega), if_neg (by omega)]
    · subst h; simp
    · obtain ⟨d, rfl⟩ : ∃ d, k = b + d + 1 := ⟨k - b - 1, by omega⟩
      rw [if_neg (by omega), if_pos (by omega), if_pos (by omega)]
      rw [show b + d + 1 - (b + 1) = d by omega, show b + d + 1 - b = d + 1 by omega]
      simp

theorem memLookup_append (m m' : Memory w) (k : Nat) :
    memLookup (m ++ m') k = (memLookup m k).or (memLookup m' k) := by
  induction m with
  | nil => simp [memLookup]
  | cons c m ih =>
    obtain ⟨j, x⟩ := c
    simp only [List.cons_append, memLookup]
    split
    · simp
    · exact ih

theorem memLookup_filter_ge (n : Nat) (m : Memory w) (k : Nat) :
    memLookup (m.filter (fun c => decide (n ≤ c.1))) k = if n ≤ k then memLookup m k else none := by
  induction m with
  | nil => simp [memLookup]
  | cons c m ih =>
    obtain ⟨j, x⟩ := c
    by_cases hj : n ≤ j
    · simp only [List.filter_cons, hj, decide_true, if_true, memLookup, ih]
      by_cases hk : k = j
      · subst hk; simp [hj]
      · simp [hk]
    · simp only [List.filter_cons, hj, decide_false, memLookup, Bool.false_eq_true, if_false, ih]
      by_cases hk : k = j
      · subst hk; simp [hj]
      · simp [hk]

theorem memLookup_memWritePrefix_below (vals : List (BitVec w)) (m : Memory w) {k : Nat}
    (h : k < vals.length) : memLookup (memWritePrefix vals m) k = some vals[k] := by
  simp [memWritePrefix, memLookup_append, memLookup_numberFrom, h]

theorem memLookup_memWritePrefix_above (vals : List (BitVec w)) (m : Memory w) {k : Nat}
    (h : vals.length ≤ k) : memLookup (memWritePrefix vals m) k = memLookup m k := by
  simp [memWritePrefix, memLookup_append, memLookup_numberFrom, memLookup_filter_ge, h]

/-! ## The canonical form -/

@[simp] theorem wf_nil : Memory.wf ([] : Memory w) := by simp [Memory.wf]

theorem key_mem_memWrite {i : Nat} {v : BitVec w} {m : Memory w} {c : Nat × BitVec w}
    (h : c ∈ memWrite i v m) : c = (i, v) ∨ c ∈ m := by
  induction m with
  | nil => simpa [memWrite] using h
  | cons d m ih =>
    obtain ⟨j, x⟩ := d
    simp only [memWrite] at h
    split at h
    · simpa using h
    · split at h
      · simp only [List.mem_cons] at h ⊢; tauto
      · simp only [List.mem_cons] at h ⊢
        rcases h with h | h
        · tauto
        · rcases ih h with h | h <;> tauto

/-- A write inside the array keeps the canonical form. -/
theorem wf_memWrite {i : Nat} {v : BitVec w} {m : Memory w} (hi : i < Config.polyCap) (h : Memory.wf m) :
    Memory.wf (memWrite i v m) := by
  refine ⟨?_, fun c hc => ?_⟩
  · have hs := h.1
    clear h
    induction m with
    | nil => simp [memWrite]
    | cons d m ih =>
      obtain ⟨j, x⟩ := d
      simp only [List.map_cons, List.pairwise_cons] at hs
      simp only [memWrite]
      split
      next hlt =>
        simp only [List.map_cons, List.pairwise_cons, List.mem_cons, hs, and_true]
        refine ⟨fun a ha => ?_, hs.1⟩
        rcases ha with rfl | ha
        · exact hlt
        · exact Nat.lt_trans hlt (hs.1 a ha)
      next hge =>
        split
        next heq => subst heq; simpa using hs
        next hne =>
          simp only [List.map_cons, List.pairwise_cons]
          refine ⟨fun a ha => ?_, ih hs.2⟩
          obtain ⟨c, hc, rfl⟩ := List.mem_map.1 ha
          rcases key_mem_memWrite hc with rfl | hc
          · show j < i; omega
          · exact hs.1 _ (List.mem_map_of_mem hc)
  · rcases key_mem_memWrite hc with rfl | hc
    · exact hi
    · exact h.2 c hc

theorem mem_numberFrom {b : Nat} {vals : List (BitVec w)} {c : Nat × BitVec w}
    (h : c ∈ numberFrom b vals) : b ≤ c.1 ∧ c.1 < b + vals.length ∧ c.2 ∈ vals := by
  induction vals generalizing b with
  | nil => simp [numberFrom] at h
  | cons v vals ih =>
    simp only [numberFrom, List.mem_cons] at h
    rcases h with rfl | h
    · simp
    · have := ih h
      simp only [List.length_cons, List.mem_cons]
      exact ⟨by omega, by omega, .inr this.2.2⟩

theorem numberFrom_sorted (b : Nat) (vals : List (BitVec w)) :
    ((numberFrom b vals).map Prod.fst).Pairwise (· < ·) := by
  induction vals generalizing b with
  | nil => simp [numberFrom]
  | cons v vals ih =>
    simp only [numberFrom, List.map_cons, List.pairwise_cons]
    refine ⟨fun a ha => ?_, ih (b + 1)⟩
    obtain ⟨c, hc, rfl⟩ := List.mem_map.1 ha
    have := (mem_numberFrom hc).1
    omega

/-- A prefix write inside the array keeps the canonical form. -/
theorem wf_memWritePrefix {vals : List (BitVec w)} {m : Memory w} (hv : vals.length ≤ Config.polyCap)
    (h : Memory.wf m) : Memory.wf (memWritePrefix vals m) := by
  refine ⟨?_, fun c hc => ?_⟩
  · rw [memWritePrefix, List.map_append, List.pairwise_append]
    refine ⟨numberFrom_sorted 0 vals, h.1.sublist (List.filter_sublist.map _), fun a ha b hb => ?_⟩
    obtain ⟨c, hc, rfl⟩ := List.mem_map.1 ha
    obtain ⟨d, hd, rfl⟩ := List.mem_map.1 hb
    have h1 := (mem_numberFrom hc).2.1
    have h2 := List.mem_filter.1 hd
    simp only [decide_eq_true_eq] at h2
    omega
  · rcases List.mem_append.1 hc with hc | hc
    · have := (mem_numberFrom hc).2.1
      omega
    · exact h.2 c (List.mem_filter.1 hc).1

/-- Writing the same prefix twice is writing it once. -/
theorem memWritePrefix_memWritePrefix (vals : List (BitVec w)) (m : Memory w) :
    memWritePrefix vals (memWritePrefix vals m) = memWritePrefix vals m := by
  have key : (numberFrom 0 vals).filter (fun c => decide (vals.length ≤ c.1)) = [] := by
    refine List.filter_eq_nil_iff.2 fun c hc => ?_
    have := (mem_numberFrom hc).2.1
    simp only [decide_eq_true_eq]
    omega
  simp [memWritePrefix, key]

/-- What an array holds after a prefix write: values of the prefix, and entries it held. -/
theorem mem_memWritePrefix {vals : List (BitVec w)} {m : Memory w} {c : Nat × BitVec w}
    (h : c ∈ memWritePrefix vals m) : c.2 ∈ vals ∨ (vals.length ≤ c.1 ∧ c ∈ m) := by
  rcases List.mem_append.1 h with h | h
  · exact .inl (mem_numberFrom h).2.2
  · have := List.mem_filter.1 h
    exact .inr ⟨by simpa using this.2, this.1⟩

/-! ## Equal arrays are equal data -/

theorem memLookup_eq_none_of_lt {m : Memory w} {k : Nat} (h : ∀ a ∈ m.map Prod.fst, k < a) :
    memLookup m k = none := by
  induction m with
  | nil => rfl
  | cons d m ih =>
    obtain ⟨j, x⟩ := d
    simp only [List.map_cons, List.forall_mem_cons] at h
    simp only [memLookup]
    rw [if_neg (by omega)]
    exact ih h.2

/-- Two arrays in canonical form that hold the same entries are the same list. -/
theorem memory_ext {m m' : Memory w} (h : Memory.wf m) (h' : Memory.wf m')
    (hk : ∀ k, memLookup m k = memLookup m' k) : m = m' := by
  have hs := h.1
  have hs' := h'.1
  clear h h'
  induction m generalizing m' with
  | nil =>
    cases m' with
    | nil => rfl
    | cons d m' => have := hk d.1; simp [memLookup] at this
  | cons c m ih =>
    obtain ⟨i, x⟩ := c
    cases m' with
    | nil => have := hk i; simp [memLookup] at this
    | cons d m' =>
      obtain ⟨j, y⟩ := d
      simp only [List.map_cons, List.pairwise_cons] at hs hs'
      have hij : i = j := by
        rcases Nat.lt_trichotomy i j with hlt | heq | hgt
        · have := hk i
          rw [memLookup_eq_none_of_lt (m := (j, y) :: m')] at this
          · simp [memLookup] at this
          · simp only [List.map_cons, List.forall_mem_cons]
            exact ⟨hlt, fun a ha => Nat.lt_trans hlt (hs'.1 a ha)⟩
        · exact heq
        · have := hk j
          rw [memLookup_eq_none_of_lt (m := (i, x) :: m)] at this
          · simp [memLookup] at this
          · simp only [List.map_cons, List.forall_mem_cons]
            exact ⟨hgt, fun a ha => Nat.lt_trans hgt (hs.1 a ha)⟩
      subst hij
      have hxy : x = y := by simpa [memLookup] using hk i
      subst hxy
      congr 1
      refine ih (fun k => ?_) hs.2 hs'.2
      by_cases hki : k = i
      · subst hki
        rw [memLookup_eq_none_of_lt hs.1, memLookup_eq_none_of_lt hs'.1]
      · simpa [memLookup, hki] using hk k

end Sys2Proof.Laws
end

