-- ==== Sys2Proof/Laws/State.lean ====
section
/-! SUPPORT. What each named update of the state does to each field, so that no proof unfolds an update. -/

namespace Sys2Proof.Laws

open Sys2Proof.Machine

/-! `setOpa` -/

@[simp] theorem setOpa_opa (s : State) (v : Cell) : (s.setOpa v).opa = v := rfl
@[simp] theorem setOpa_opb (s : State) (v : Cell) : (s.setOpa v).opb = s.opb := rfl
@[simp] theorem setOpa_res (s : State) (v : Cell) : (s.setOpa v).res = s.res := rfl
@[simp] theorem setOpa_ncw (s : State) (v : Cell) : (s.setOpa v).ncw = s.ncw := rfl
@[simp] theorem setOpa_mlen (s : State) (v : Cell) : (s.setOpa v).mlen = s.mlen := rfl
@[simp] theorem setOpa_ecclen (s : State) (v : Cell) : (s.setOpa v).ecclen = s.ecclen := rfl
@[simp] theorem setOpa_cause (s : State) (v : Cell) : (s.setOpa v).cause = s.cause := rfl
@[simp] theorem setOpa_halt (s : State) (v : Cell) : (s.setOpa v).halt = s.halt := rfl
@[simp] theorem setOpa_msg (s : State) (v : Cell) : (s.setOpa v).msg = s.msg := rfl
@[simp] theorem setOpa_ecc (s : State) (v : Cell) : (s.setOpa v).ecc = s.ecc := rfl
@[simp] theorem setOpa_pg (s : State) (v : Cell) : (s.setOpa v).pg = s.pg := rfl
@[simp] theorem setOpa_epoch (s : State) (v : Cell) : (s.setOpa v).epoch = s.epoch := rfl
@[simp] theorem setOpa_draws (s : State) (v : Cell) : (s.setOpa v).draws = s.draws := rfl
@[simp] theorem setOpa_script (s : State) (v : Cell) : (s.setOpa v).script = s.script := rfl
@[simp] theorem setOpa_replies (s : State) (v : Cell) : (s.setOpa v).replies = s.replies := rfl

/-! `setOpb` -/

@[simp] theorem setOpb_opa (s : State) (v : Cell) : (s.setOpb v).opa = s.opa := rfl
@[simp] theorem setOpb_opb (s : State) (v : Cell) : (s.setOpb v).opb = v := rfl
@[simp] theorem setOpb_res (s : State) (v : Cell) : (s.setOpb v).res = s.res := rfl
@[simp] theorem setOpb_ncw (s : State) (v : Cell) : (s.setOpb v).ncw = s.ncw := rfl
@[simp] theorem setOpb_mlen (s : State) (v : Cell) : (s.setOpb v).mlen = s.mlen := rfl
@[simp] theorem setOpb_ecclen (s : State) (v : Cell) : (s.setOpb v).ecclen = s.ecclen := rfl
@[simp] theorem setOpb_cause (s : State) (v : Cell) : (s.setOpb v).cause = s.cause := rfl
@[simp] theorem setOpb_halt (s : State) (v : Cell) : (s.setOpb v).halt = s.halt := rfl
@[simp] theorem setOpb_msg (s : State) (v : Cell) : (s.setOpb v).msg = s.msg := rfl
@[simp] theorem setOpb_ecc (s : State) (v : Cell) : (s.setOpb v).ecc = s.ecc := rfl
@[simp] theorem setOpb_pg (s : State) (v : Cell) : (s.setOpb v).pg = s.pg := rfl
@[simp] theorem setOpb_epoch (s : State) (v : Cell) : (s.setOpb v).epoch = s.epoch := rfl
@[simp] theorem setOpb_draws (s : State) (v : Cell) : (s.setOpb v).draws = s.draws := rfl
@[simp] theorem setOpb_script (s : State) (v : Cell) : (s.setOpb v).script = s.script := rfl
@[simp] theorem setOpb_replies (s : State) (v : Cell) : (s.setOpb v).replies = s.replies := rfl

/-! `setRes` -/

@[simp] theorem setRes_opa (s : State) (v : Cell) : (s.setRes v).opa = s.opa := rfl
@[simp] theorem setRes_opb (s : State) (v : Cell) : (s.setRes v).opb = s.opb := rfl
@[simp] theorem setRes_res (s : State) (v : Cell) : (s.setRes v).res = v := rfl
@[simp] theorem setRes_ncw (s : State) (v : Cell) : (s.setRes v).ncw = s.ncw := rfl
@[simp] theorem setRes_mlen (s : State) (v : Cell) : (s.setRes v).mlen = s.mlen := rfl
@[simp] theorem setRes_ecclen (s : State) (v : Cell) : (s.setRes v).ecclen = s.ecclen := rfl
@[simp] theorem setRes_cause (s : State) (v : Cell) : (s.setRes v).cause = s.cause := rfl
@[simp] theorem setRes_halt (s : State) (v : Cell) : (s.setRes v).halt = s.halt := rfl
@[simp] theorem setRes_msg (s : State) (v : Cell) : (s.setRes v).msg = s.msg := rfl
@[simp] theorem setRes_ecc (s : State) (v : Cell) : (s.setRes v).ecc = s.ecc := rfl
@[simp] theorem setRes_pg (s : State) (v : Cell) : (s.setRes v).pg = s.pg := rfl
@[simp] theorem setRes_epoch (s : State) (v : Cell) : (s.setRes v).epoch = s.epoch := rfl
@[simp] theorem setRes_draws (s : State) (v : Cell) : (s.setRes v).draws = s.draws := rfl
@[simp] theorem setRes_script (s : State) (v : Cell) : (s.setRes v).script = s.script := rfl
@[simp] theorem setRes_replies (s : State) (v : Cell) : (s.setRes v).replies = s.replies := rfl

/-! `setNcw` -/

@[simp] theorem setNcw_opa (s : State) (v : Word) : (s.setNcw v).opa = s.opa := rfl
@[simp] theorem setNcw_opb (s : State) (v : Word) : (s.setNcw v).opb = s.opb := rfl
@[simp] theorem setNcw_res (s : State) (v : Word) : (s.setNcw v).res = s.res := rfl
@[simp] theorem setNcw_ncw (s : State) (v : Word) : (s.setNcw v).ncw = v := rfl
@[simp] theorem setNcw_mlen (s : State) (v : Word) : (s.setNcw v).mlen = s.mlen := rfl
@[simp] theorem setNcw_ecclen (s : State) (v : Word) : (s.setNcw v).ecclen = s.ecclen := rfl
@[simp] theorem setNcw_cause (s : State) (v : Word) : (s.setNcw v).cause = s.cause := rfl
@[simp] theorem setNcw_halt (s : State) (v : Word) : (s.setNcw v).halt = s.halt := rfl
@[simp] theorem setNcw_msg (s : State) (v : Word) : (s.setNcw v).msg = s.msg := rfl
@[simp] theorem setNcw_ecc (s : State) (v : Word) : (s.setNcw v).ecc = s.ecc := rfl
@[simp] theorem setNcw_pg (s : State) (v : Word) : (s.setNcw v).pg = s.pg := rfl
@[simp] theorem setNcw_epoch (s : State) (v : Word) : (s.setNcw v).epoch = s.epoch := rfl
@[simp] theorem setNcw_draws (s : State) (v : Word) : (s.setNcw v).draws = s.draws := rfl
@[simp] theorem setNcw_script (s : State) (v : Word) : (s.setNcw v).script = s.script := rfl
@[simp] theorem setNcw_replies (s : State) (v : Word) : (s.setNcw v).replies = s.replies := rfl

/-! `setMlen` -/

@[simp] theorem setMlen_opa (s : State) (v : Word) : (s.setMlen v).opa = s.opa := rfl
@[simp] theorem setMlen_opb (s : State) (v : Word) : (s.setMlen v).opb = s.opb := rfl
@[simp] theorem setMlen_res (s : State) (v : Word) : (s.setMlen v).res = s.res := rfl
@[simp] theorem setMlen_ncw (s : State) (v : Word) : (s.setMlen v).ncw = s.ncw := rfl
@[simp] theorem setMlen_mlen (s : State) (v : Word) : (s.setMlen v).mlen = v := rfl
@[simp] theorem setMlen_ecclen (s : State) (v : Word) : (s.setMlen v).ecclen = s.ecclen := rfl
@[simp] theorem setMlen_cause (s : State) (v : Word) : (s.setMlen v).cause = s.cause := rfl
@[simp] theorem setMlen_halt (s : State) (v : Word) : (s.setMlen v).halt = s.halt := rfl
@[simp] theorem setMlen_msg (s : State) (v : Word) : (s.setMlen v).msg = s.msg := rfl
@[simp] theorem setMlen_ecc (s : State) (v : Word) : (s.setMlen v).ecc = s.ecc := rfl
@[simp] theorem setMlen_pg (s : State) (v : Word) : (s.setMlen v).pg = s.pg := rfl
@[simp] theorem setMlen_epoch (s : State) (v : Word) : (s.setMlen v).epoch = s.epoch := rfl
@[simp] theorem setMlen_draws (s : State) (v : Word) : (s.setMlen v).draws = s.draws := rfl
@[simp] theorem setMlen_script (s : State) (v : Word) : (s.setMlen v).script = s.script := rfl
@[simp] theorem setMlen_replies (s : State) (v : Word) : (s.setMlen v).replies = s.replies := rfl

/-! `setEccLen` -/

@[simp] theorem setEccLen_opa (s : State) (v : Word) : (s.setEccLen v).opa = s.opa := rfl
@[simp] theorem setEccLen_opb (s : State) (v : Word) : (s.setEccLen v).opb = s.opb := rfl
@[simp] theorem setEccLen_res (s : State) (v : Word) : (s.setEccLen v).res = s.res := rfl
@[simp] theorem setEccLen_ncw (s : State) (v : Word) : (s.setEccLen v).ncw = s.ncw := rfl
@[simp] theorem setEccLen_mlen (s : State) (v : Word) : (s.setEccLen v).mlen = s.mlen := rfl
@[simp] theorem setEccLen_ecclen (s : State) (v : Word) : (s.setEccLen v).ecclen = v := rfl
@[simp] theorem setEccLen_cause (s : State) (v : Word) : (s.setEccLen v).cause = s.cause := rfl
@[simp] theorem setEccLen_halt (s : State) (v : Word) : (s.setEccLen v).halt = s.halt := rfl
@[simp] theorem setEccLen_msg (s : State) (v : Word) : (s.setEccLen v).msg = s.msg := rfl
@[simp] theorem setEccLen_ecc (s : State) (v : Word) : (s.setEccLen v).ecc = s.ecc := rfl
@[simp] theorem setEccLen_pg (s : State) (v : Word) : (s.setEccLen v).pg = s.pg := rfl
@[simp] theorem setEccLen_epoch (s : State) (v : Word) : (s.setEccLen v).epoch = s.epoch := rfl
@[simp] theorem setEccLen_draws (s : State) (v : Word) : (s.setEccLen v).draws = s.draws := rfl
@[simp] theorem setEccLen_script (s : State) (v : Word) : (s.setEccLen v).script = s.script := rfl
@[simp] theorem setEccLen_replies (s : State) (v : Word) : (s.setEccLen v).replies = s.replies := rfl

/-! `setMsg` -/

@[simp] theorem setMsg_opa (s : State) (i : Nat) (v : Byte) : (s.setMsg i v).opa = s.opa := rfl
@[simp] theorem setMsg_opb (s : State) (i : Nat) (v : Byte) : (s.setMsg i v).opb = s.opb := rfl
@[simp] theorem setMsg_res (s : State) (i : Nat) (v : Byte) : (s.setMsg i v).res = s.res := rfl
@[simp] theorem setMsg_ncw (s : State) (i : Nat) (v : Byte) : (s.setMsg i v).ncw = s.ncw := rfl
@[simp] theorem setMsg_mlen (s : State) (i : Nat) (v : Byte) : (s.setMsg i v).mlen = s.mlen := rfl
@[simp] theorem setMsg_ecclen (s : State) (i : Nat) (v : Byte) : (s.setMsg i v).ecclen = s.ecclen := rfl
@[simp] theorem setMsg_cause (s : State) (i : Nat) (v : Byte) : (s.setMsg i v).cause = s.cause := rfl
@[simp] theorem setMsg_halt (s : State) (i : Nat) (v : Byte) : (s.setMsg i v).halt = s.halt := rfl
@[simp] theorem setMsg_msg (s : State) (i : Nat) (v : Byte) : (s.setMsg i v).msg = memWrite i v s.msg := rfl
@[simp] theorem setMsg_ecc (s : State) (i : Nat) (v : Byte) : (s.setMsg i v).ecc = s.ecc := rfl
@[simp] theorem setMsg_pg (s : State) (i : Nat) (v : Byte) : (s.setMsg i v).pg = s.pg := rfl
@[simp] theorem setMsg_epoch (s : State) (i : Nat) (v : Byte) : (s.setMsg i v).epoch = s.epoch := rfl
@[simp] theorem setMsg_draws (s : State) (i : Nat) (v : Byte) : (s.setMsg i v).draws = s.draws := rfl
@[simp] theorem setMsg_script (s : State) (i : Nat) (v : Byte) : (s.setMsg i v).script = s.script := rfl
@[simp] theorem setMsg_replies (s : State) (i : Nat) (v : Byte) : (s.setMsg i v).replies = s.replies := rfl

/-! `setEcc` -/

@[simp] theorem setEcc_opa (s : State) (l : List Byte) : (s.setEcc l).opa = s.opa := rfl
@[simp] theorem setEcc_opb (s : State) (l : List Byte) : (s.setEcc l).opb = s.opb := rfl
@[simp] theorem setEcc_res (s : State) (l : List Byte) : (s.setEcc l).res = s.res := rfl
@[simp] theorem setEcc_ncw (s : State) (l : List Byte) : (s.setEcc l).ncw = s.ncw := rfl
@[simp] theorem setEcc_mlen (s : State) (l : List Byte) : (s.setEcc l).mlen = s.mlen := rfl
@[simp] theorem setEcc_ecclen (s : State) (l : List Byte) : (s.setEcc l).ecclen = s.ecclen := rfl
@[simp] theorem setEcc_cause (s : State) (l : List Byte) : (s.setEcc l).cause = s.cause := rfl
@[simp] theorem setEcc_halt (s : State) (l : List Byte) : (s.setEcc l).halt = s.halt := rfl
@[simp] theorem setEcc_msg (s : State) (l : List Byte) : (s.setEcc l).msg = s.msg := rfl
@[simp] theorem setEcc_ecc (s : State) (l : List Byte) : (s.setEcc l).ecc = memWritePrefix l s.ecc := rfl
@[simp] theorem setEcc_pg (s : State) (l : List Byte) : (s.setEcc l).pg = s.pg := rfl
@[simp] theorem setEcc_epoch (s : State) (l : List Byte) : (s.setEcc l).epoch = s.epoch := rfl
@[simp] theorem setEcc_draws (s : State) (l : List Byte) : (s.setEcc l).draws = s.draws := rfl
@[simp] theorem setEcc_script (s : State) (l : List Byte) : (s.setEcc l).script = s.script := rfl
@[simp] theorem setEcc_replies (s : State) (l : List Byte) : (s.setEcc l).replies = s.replies := rfl

/-! `setPg` -/

@[simp] theorem setPg_opa (s : State) (l : List Cell) : (s.setPg l).opa = s.opa := rfl
@[simp] theorem setPg_opb (s : State) (l : List Cell) : (s.setPg l).opb = s.opb := rfl
@[simp] theorem setPg_res (s : State) (l : List Cell) : (s.setPg l).res = s.res := rfl
@[simp] theorem setPg_ncw (s : State) (l : List Cell) : (s.setPg l).ncw = s.ncw := rfl
@[simp] theorem setPg_mlen (s : State) (l : List Cell) : (s.setPg l).mlen = s.mlen := rfl
@[simp] theorem setPg_ecclen (s : State) (l : List Cell) : (s.setPg l).ecclen = s.ecclen := rfl
@[simp] theorem setPg_cause (s : State) (l : List Cell) : (s.setPg l).cause = s.cause := rfl
@[simp] theorem setPg_halt (s : State) (l : List Cell) : (s.setPg l).halt = s.halt := rfl
@[simp] theorem setPg_msg (s : State) (l : List Cell) : (s.setPg l).msg = s.msg := rfl
@[simp] theorem setPg_ecc (s : State) (l : List Cell) : (s.setPg l).ecc = s.ecc := rfl
@[simp] theorem setPg_pg (s : State) (l : List Cell) : (s.setPg l).pg = memWritePrefix l s.pg := rfl
@[simp] theorem setPg_epoch (s : State) (l : List Cell) : (s.setPg l).epoch = s.epoch := rfl
@[simp] theorem setPg_draws (s : State) (l : List Cell) : (s.setPg l).draws = s.draws := rfl
@[simp] theorem setPg_script (s : State) (l : List Cell) : (s.setPg l).script = s.script := rfl
@[simp] theorem setPg_replies (s : State) (l : List Cell) : (s.setPg l).replies = s.replies := rfl

/-! `setScript` -/

@[simp] theorem setScript_opa (s : State) (l : List HostEvent) : (s.setScript l).opa = s.opa := rfl
@[simp] theorem setScript_opb (s : State) (l : List HostEvent) : (s.setScript l).opb = s.opb := rfl
@[simp] theorem setScript_res (s : State) (l : List HostEvent) : (s.setScript l).res = s.res := rfl
@[simp] theorem setScript_ncw (s : State) (l : List HostEvent) : (s.setScript l).ncw = s.ncw := rfl
@[simp] theorem setScript_mlen (s : State) (l : List HostEvent) : (s.setScript l).mlen = s.mlen := rfl
@[simp] theorem setScript_ecclen (s : State) (l : List HostEvent) : (s.setScript l).ecclen = s.ecclen := rfl
@[simp] theorem setScript_cause (s : State) (l : List HostEvent) : (s.setScript l).cause = s.cause := rfl
@[simp] theorem setScript_halt (s : State) (l : List HostEvent) : (s.setScript l).halt = s.halt := rfl
@[simp] theorem setScript_msg (s : State) (l : List HostEvent) : (s.setScript l).msg = s.msg := rfl
@[simp] theorem setScript_ecc (s : State) (l : List HostEvent) : (s.setScript l).ecc = s.ecc := rfl
@[simp] theorem setScript_pg (s : State) (l : List HostEvent) : (s.setScript l).pg = s.pg := rfl
@[simp] theorem setScript_epoch (s : State) (l : List HostEvent) : (s.setScript l).epoch = s.epoch := rfl
@[simp] theorem setScript_draws (s : State) (l : List HostEvent) : (s.setScript l).draws = s.draws := rfl
@[simp] theorem setScript_script (s : State) (l : List HostEvent) : (s.setScript l).script = l := rfl
@[simp] theorem setScript_replies (s : State) (l : List HostEvent) : (s.setScript l).replies = s.replies := rfl

/-! `reply` -/

@[simp] theorem reply_opa (s : State) (r : Response) (d : Option Word) : (s.reply r d).opa = s.opa := rfl
@[simp] theorem reply_opb (s : State) (r : Response) (d : Option Word) : (s.reply r d).opb = s.opb := rfl
@[simp] theorem reply_res (s : State) (r : Response) (d : Option Word) : (s.reply r d).res = s.res := rfl
@[simp] theorem reply_ncw (s : State) (r : Response) (d : Option Word) : (s.reply r d).ncw = s.ncw := rfl
@[simp] theorem reply_mlen (s : State) (r : Response) (d : Option Word) : (s.reply r d).mlen = s.mlen := rfl
@[simp] theorem reply_ecclen (s : State) (r : Response) (d : Option Word) : (s.reply r d).ecclen = s.ecclen := rfl
@[simp] theorem reply_cause (s : State) (r : Response) (d : Option Word) : (s.reply r d).cause = s.cause := rfl
@[simp] theorem reply_halt (s : State) (r : Response) (d : Option Word) : (s.reply r d).halt = s.halt := rfl
@[simp] theorem reply_msg (s : State) (r : Response) (d : Option Word) : (s.reply r d).msg = s.msg := rfl
@[simp] theorem reply_ecc (s : State) (r : Response) (d : Option Word) : (s.reply r d).ecc = s.ecc := rfl
@[simp] theorem reply_pg (s : State) (r : Response) (d : Option Word) : (s.reply r d).pg = s.pg := rfl
@[simp] theorem reply_epoch (s : State) (r : Response) (d : Option Word) : (s.reply r d).epoch = s.epoch := rfl
@[simp] theorem reply_draws (s : State) (r : Response) (d : Option Word) : (s.reply r d).draws = s.draws := rfl
@[simp] theorem reply_script (s : State) (r : Response) (d : Option Word) : (s.reply r d).script = s.script := rfl
@[simp] theorem reply_replies (s : State) (r : Response) (d : Option Word) : (s.reply r d).replies = ⟨r, d⟩ :: s.replies := rfl

/-! `countDraw` -/

@[simp] theorem countDraw_opa (s : State) : s.countDraw.opa = s.opa := rfl
@[simp] theorem countDraw_opb (s : State) : s.countDraw.opb = s.opb := rfl
@[simp] theorem countDraw_res (s : State) : s.countDraw.res = s.res := rfl
@[simp] theorem countDraw_ncw (s : State) : s.countDraw.ncw = s.ncw := rfl
@[simp] theorem countDraw_mlen (s : State) : s.countDraw.mlen = s.mlen := rfl
@[simp] theorem countDraw_ecclen (s : State) : s.countDraw.ecclen = s.ecclen := rfl
@[simp] theorem countDraw_cause (s : State) : s.countDraw.cause = s.cause := rfl
@[simp] theorem countDraw_halt (s : State) : s.countDraw.halt = s.halt := rfl
@[simp] theorem countDraw_msg (s : State) : s.countDraw.msg = s.msg := rfl
@[simp] theorem countDraw_ecc (s : State) : s.countDraw.ecc = s.ecc := rfl
@[simp] theorem countDraw_pg (s : State) : s.countDraw.pg = s.pg := rfl
@[simp] theorem countDraw_epoch (s : State) : s.countDraw.epoch = s.epoch := rfl
@[simp] theorem countDraw_draws (s : State) : s.countDraw.draws = s.draws + 1 := rfl
@[simp] theorem countDraw_script (s : State) : s.countDraw.script = s.script := rfl
@[simp] theorem countDraw_replies (s : State) : s.countDraw.replies = s.replies := rfl

/-! `complete` -/

@[simp] theorem complete_opa (s : State) : s.complete.opa = s.opa := rfl
@[simp] theorem complete_opb (s : State) : s.complete.opb = s.opb := rfl
@[simp] theorem complete_res (s : State) : s.complete.res = s.res := rfl
@[simp] theorem complete_ncw (s : State) : s.complete.ncw = s.ncw := rfl
@[simp] theorem complete_mlen (s : State) : s.complete.mlen = s.mlen := rfl
@[simp] theorem complete_ecclen (s : State) : s.complete.ecclen = s.ecclen := rfl
@[simp] theorem complete_cause (s : State) : s.complete.cause = none := rfl
@[simp] theorem complete_halt (s : State) : s.complete.halt = s.halt := rfl
@[simp] theorem complete_msg (s : State) : s.complete.msg = s.msg := rfl
@[simp] theorem complete_ecc (s : State) : s.complete.ecc = s.ecc := rfl
@[simp] theorem complete_pg (s : State) : s.complete.pg = s.pg := rfl
@[simp] theorem complete_epoch (s : State) : s.complete.epoch = s.epoch := rfl
@[simp] theorem complete_draws (s : State) : s.complete.draws = s.draws := rfl
@[simp] theorem complete_script (s : State) : s.complete.script = s.script := rfl
@[simp] theorem complete_replies (s : State) : s.complete.replies = s.replies := rfl

/-! `takeFault` -/

@[simp] theorem takeFault_opa (s : State) (f : CommandFault) : (s.takeFault f).opa = s.opa := rfl
@[simp] theorem takeFault_opb (s : State) (f : CommandFault) : (s.takeFault f).opb = s.opb := rfl
@[simp] theorem takeFault_res (s : State) (f : CommandFault) : (s.takeFault f).res = s.res := rfl
@[simp] theorem takeFault_ncw (s : State) (f : CommandFault) : (s.takeFault f).ncw = s.ncw := rfl
@[simp] theorem takeFault_mlen (s : State) (f : CommandFault) : (s.takeFault f).mlen = s.mlen := rfl
@[simp] theorem takeFault_ecclen (s : State) (f : CommandFault) : (s.takeFault f).ecclen = s.ecclen := rfl
@[simp] theorem takeFault_cause (s : State) (f : CommandFault) : (s.takeFault f).cause = some f := rfl
@[simp] theorem takeFault_halt (s : State) (f : CommandFault) : (s.takeFault f).halt = (s.halt || decide (f = .invariantViolation)) := rfl
@[simp] theorem takeFault_msg (s : State) (f : CommandFault) : (s.takeFault f).msg = s.msg := rfl
@[simp] theorem takeFault_ecc (s : State) (f : CommandFault) : (s.takeFault f).ecc = s.ecc := rfl
@[simp] theorem takeFault_pg (s : State) (f : CommandFault) : (s.takeFault f).pg = s.pg := rfl
@[simp] theorem takeFault_epoch (s : State) (f : CommandFault) : (s.takeFault f).epoch = s.epoch := rfl
@[simp] theorem takeFault_draws (s : State) (f : CommandFault) : (s.takeFault f).draws = s.draws := rfl
@[simp] theorem takeFault_script (s : State) (f : CommandFault) : (s.takeFault f).script = s.script := rfl
@[simp] theorem takeFault_replies (s : State) (f : CommandFault) : (s.takeFault f).replies = s.replies := rfl

/-! `applyReset` -/

@[simp] theorem applyReset_opa (s : State) : s.applyReset.opa = 0 := rfl
@[simp] theorem applyReset_opb (s : State) : s.applyReset.opb = 0 := rfl
@[simp] theorem applyReset_res (s : State) : s.applyReset.res = 0 := rfl
@[simp] theorem applyReset_ncw (s : State) : s.applyReset.ncw = 0 := rfl
@[simp] theorem applyReset_mlen (s : State) : s.applyReset.mlen = 0 := rfl
@[simp] theorem applyReset_ecclen (s : State) : s.applyReset.ecclen = 0 := rfl
@[simp] theorem applyReset_cause (s : State) : s.applyReset.cause = none := rfl
@[simp] theorem applyReset_halt (s : State) : s.applyReset.halt = false := rfl
@[simp] theorem applyReset_msg (s : State) : s.applyReset.msg = [] := rfl
@[simp] theorem applyReset_ecc (s : State) : s.applyReset.ecc = [] := rfl
@[simp] theorem applyReset_pg (s : State) : s.applyReset.pg = [] := rfl
@[simp] theorem applyReset_epoch (s : State) : s.applyReset.epoch = s.epoch + 1 := rfl
@[simp] theorem applyReset_draws (s : State) : s.applyReset.draws = s.draws := rfl
@[simp] theorem applyReset_script (s : State) : s.applyReset.script = s.script := rfl
@[simp] theorem applyReset_replies (s : State) : s.applyReset.replies = s.replies := rfl

end Sys2Proof.Laws
end

