-- ==== Sys2Proof/Laws/Ops.lean ====
section
/-! SUPPORT. What each shared operation can do, said once: the outcome of a command, of an access, of a step. -/

namespace Sys2Proof.Laws

open Sys2Proof.Machine

variable {body : State → Except CommandFault State} {s t : State}

/-! ## Commands -/

theorem runCommand_halted (h : s.halt = true) : runCommand body s = .next s := by simp [runCommand, h]

theorem runCommand_ok {u : State} (h : s.halt = false) (hb : body s = .ok u) :
    runCommand body s = .next u.complete := by simp [runCommand, h, hb]

theorem runCommand_error {f : CommandFault} (h : s.halt = false) (hb : body s = .error f) :
    runCommand body s = .next (s.takeFault f) := by simp [runCommand, h, hb]

/-- The three ways a command ends (R217). -/
theorem runCommand_cases (h : runCommand body s = .next t) :
    (s.halt = true ∧ t = s) ∨
    (s.halt = false ∧ ∃ u, body s = .ok u ∧ t = u.complete) ∨
    (s.halt = false ∧ ∃ f, body s = .error f ∧ t = s.takeFault f) := by
  unfold runCommand at h
  split at h
  · next hh => cases h; exact .inl ⟨hh, rfl⟩
  · next hh =>
    have hh : s.halt = false := by simpa using hh
    split at h
    · next u hu => cases h; exact .inr (.inl ⟨hh, u, hu, rfl⟩)
    · next f hf => cases h; exact .inr (.inr ⟨hh, f, hf, rfl⟩)

theorem runCommand_next (body : State → Except CommandFault State) (s : State) :
    ∃ t, runCommand body s = .next t := by
  unfold runCommand
  split
  · exact ⟨_, rfl⟩
  · split <;> exact ⟨_, rfl⟩

/-- The checks and writes of each command. -/
def commandBody : Instr → State → Except CommandFault State
  | .toval => fun s => (toValue (operandA s)).map fun v => s.setRes (v.setWidth 16)
  | .toexp => fun s => (toExponent (operandA s)).map s.setRes
  | .gfmul => fun s => (addExponents (operandA s) (operandB s)).map s.setRes
  | .gfadd => fun s => (combine (operandA s) (operandB s)).map s.setRes
  | .genpoly => genpolyBody
  | .encode => encodeBody

/-- Every command goes through the one outcome operation. -/
theorem exec_eq_runCommand (i : Instr) (s : State) : exec i s = runCommand (commandBody i) s := by
  cases i <;> rfl

/-- A command whose checks and writes succeed. -/
theorem exec_ok {i : Instr} {u : State} (h : s.halt = false) (hb : commandBody i s = .ok u) :
    exec i s = .next u.complete := by
  rw [exec_eq_runCommand]; exact runCommand_ok h hb

/-- A command whose checks fault. -/
theorem exec_error {i : Instr} {f : CommandFault} (h : s.halt = false) (hb : commandBody i s = .error f) :
    exec i s = .next (s.takeFault f) := by
  rw [exec_eq_runCommand]; exact runCommand_error h hb

/-- A halted core executes no command (R207). -/
theorem exec_halted (i : Instr) (h : s.halt = true) : exec i s = .next s := by
  rw [exec_eq_runCommand]; exact runCommand_halted h

theorem commandBody_toval (s : State) :
    commandBody .toval s = (toValue s.opa).map fun v => s.setRes (v.setWidth 16) := rfl

theorem commandBody_toexp (s : State) : commandBody .toexp s = (toExponent s.opa).map s.setRes := rfl

theorem commandBody_gfmul (s : State) : commandBody .gfmul s = (addExponents s.opa s.opb).map s.setRes := rfl

theorem commandBody_gfadd (s : State) : commandBody .gfadd s = (combine s.opa s.opb).map s.setRes := rfl

/-- The parameters GENPOLY accepts (R151). -/
theorem not_genpolyParameterBad {n : Nat} : ¬ genpolyParameterBad n ↔ 1 ≤ n ∧ n ≤ 254 := by
  simp only [genpolyParameterBad, Config.nMaxGen_eq]; omega

/-- The parameters ENCODE accepts (R171). -/
theorem not_encodeParameterBad {n L : Nat} : ¬ encodeParameterBad n L ↔ 1 ≤ n ∧ 1 ≤ L ∧ L + n ≤ 255 := by
  simp only [encodeParameterBad, Config.polyCap_eq]; omega

theorem exec_next (i : Instr) (s : State) : ∃ t, exec i s = .next t := by
  rw [exec_eq_runCommand]; exact runCommand_next _ _

theorem executeWord_next (w : Word) (s : State) : ∃ t, executeWord w s = .next t := by
  unfold executeWord
  split
  · exact exec_next _ _
  · exact runCommand_next _ _

/-! ## Accesses -/

theorem writeReg_next (r : Reg) (v : Word) (s : State) : ∃ t, writeReg r v s = .next t := by
  cases r <;> simp only [writeReg] <;> first | exact executeWord_next _ _ | exact ⟨_, rfl⟩

/-- A read never changes the core: it answers, and an `ERROR` uses up a free value. -/
theorem busRead_cases (off : Offset) (s : State) :
    (∃ r, checkRead off = .ok r ∧ busRead off s = .next (s.reply .okay (some (readReg s r)))) ∨
    (∃ e, checkRead off = .error e ∧
      busRead off s = .next (s.countDraw.reply .error (some (Config.errorReadData s.draws)))) := by
  unfold busRead
  cases h : checkRead off with
  | ok r => exact .inl ⟨r, rfl, rfl⟩
  | error e => exact .inr ⟨e, rfl, rfl⟩

/-- A write has the effect of the register it reaches and is answered `OKAY`, or is answered `ERROR` and has none. -/
theorem busWrite_cases (off : Offset) (v : Word) (s : State) :
    (∃ r u, checkWrite off v = .ok r ∧ writeReg r v s = .next u ∧ busWrite off v s = .next (u.reply .okay none)) ∨
    (∃ e, checkWrite off v = .error e ∧ busWrite off v s = .next (s.reply .error none)) := by
  unfold busWrite
  cases h : checkWrite off v with
  | ok r =>
    obtain ⟨u, hu⟩ := writeReg_next r v s
    exact .inl ⟨r, u, rfl, hu, by simp [hu]⟩
  | error e => exact .inr ⟨e, rfl, rfl⟩

theorem perform_next (e : HostEvent) (s : State) : ∃ t, perform e s = .next t := by
  cases e with
  | read off =>
    rcases busRead_cases off s with ⟨_, _, h⟩ | ⟨_, _, h⟩ <;> exact ⟨_, h⟩
  | write off v =>
    rcases busWrite_cases off v s with ⟨_, _, _, _, h⟩ | ⟨_, _, h⟩ <;> exact ⟨_, h⟩
  | reset => exact ⟨_, rfl⟩

/-! ## Steps -/

theorem step_idle (h : s.script = []) : step s = .next s := by simp [step, hostStep, h]

theorem step_cons {e : HostEvent} {rest : List HostEvent} (h : s.script = e :: rest) :
    step s = perform e (s.setScript rest) := by simp [step, hostStep, h]

theorem step_next (s : State) : ∃ t, step s = .next t := by
  cases h : s.script with
  | nil => exact ⟨s, step_idle h⟩
  | cons e rest => rw [step_cons h]; exact perform_next _ _

/-! ## Reading the arrays after the updates that write them -/

@[simp] theorem readMsg_setMsg_same (s : State) (i : Nat) (v : Byte) : readMsg (s.setMsg i v) i = v := by
  simp [readMsg]

theorem readMsg_setMsg_other {i k : Nat} (h : k ≠ i) (s : State) (v : Byte) :
    readMsg (s.setMsg i v) k = readMsg s k := by
  simp [readMsg, memLookup_memWrite_other h]

theorem readEcc_setEcc_below {l : List Byte} {k : Nat} (h : k < l.length) (s : State) :
    readEcc (s.setEcc l) k = l[k] := by
  simp [readEcc, memLookup_memWritePrefix_below l s.ecc h]

theorem readEcc_setEcc_above {l : List Byte} {k : Nat} (h : l.length ≤ k) (s : State) :
    readEcc (s.setEcc l) k = readEcc s k := by
  simp [readEcc, memLookup_memWritePrefix_above l s.ecc h]

theorem readPg_setPg {l : List Cell} {k : Nat} (h : k < l.length) (s : State) :
    readPg (s.setPg l) k = l[k] := by
  simp [readPg, memLookup_memWritePrefix_below l s.pg h]

end Sys2Proof.Laws
end

