-- ==== Sys2Proof/Laws/Commands.lean ====
section
/-! SUPPORT. What the checks and writes of each command can do, said once. -/

namespace Sys2Proof.Laws

open Sys2Proof.Machine Sys2Proof.Safety

variable {s u : State} {f : CommandFault}

/-- A scalar command that succeeds writes `RES` and nothing else (R79). -/
theorem scalarBody_ok {i : Instr} (hi : i ≠ .genpoly ∧ i ≠ .encode) (h : commandBody i s = .ok u) :
    ∃ v, u = s.setRes v := by
  cases i with
  | toval =>
    rw [commandBody_toval] at h
    cases hr : toValue s.opa with
    | error e => rw [hr] at h; cases h
    | ok v => rw [hr] at h; cases h; exact ⟨_, rfl⟩
  | toexp =>
    rw [commandBody_toexp] at h
    cases hr : toExponent s.opa with
    | error e => rw [hr] at h; cases h
    | ok v => rw [hr] at h; cases h; exact ⟨_, rfl⟩
  | gfmul =>
    rw [commandBody_gfmul] at h
    cases hr : addExponents s.opa s.opb with
    | error e => rw [hr] at h; cases h
    | ok v => rw [hr] at h; cases h; exact ⟨_, rfl⟩
  | gfadd =>
    rw [commandBody_gfadd] at h
    cases hr : combine s.opa s.opb with
    | error e => rw [hr] at h; cases h
    | ok v => rw [hr] at h; cases h; exact ⟨_, rfl⟩
  | genpoly => exact absurd rfl hi.1
  | encode => exact absurd rfl hi.2

/-- GENPOLY faults on its parameter, or writes the generator it built (R150, R151). -/
theorem genpolyBody_cases (s : State) :
    (genpolyParameterBad s.ncw.toNat ∧ genpolyBody s = .error .invalidParameter) ∨
    ((1 ≤ s.ncw.toNat ∧ s.ncw.toNat ≤ 254) ∧
      ∃ G, buildGenerator s.ncw.toNat = .ok G ∧ ValidPoly G ∧ genpolyBody s = .ok (s.setPg G)) := by
  by_cases hb : genpolyParameterBad s.ncw.toNat
  · exact .inl ⟨hb, if_pos hb⟩
  · have hn := not_genpolyParameterBad.1 hb
    obtain ⟨G, hG, hGv⟩ := buildGenerator_valid hn
    refine .inr ⟨hn, G, hG, hGv, ?_⟩
    simp only [genpolyBody]
    rw [if_neg hb, hG]
    rfl

/-- ENCODE faults on its parameters, or every step of it succeeds and it writes the generator, the codewords and
their number (R170, R171, R185). -/
theorem encodeBody_cases (s : State) :
    (encodeParameterBad s.ncw.toNat s.mlen.toNat ∧ encodeBody s = .error .invalidParameter) ∨
    ((1 ≤ s.ncw.toNat ∧ 1 ≤ s.mlen.toNat ∧ s.mlen.toNat + s.ncw.toNat ≤ 255) ∧
      ∃ G M R bytes, buildGenerator s.ncw.toNat = .ok G ∧ ValidPoly G ∧
        loadMessage (messageBytes s s.mlen.toNat) = .ok M ∧ ValidPoly M ∧
        divide (polyShift M s.ncw.toNat) G s.ncw.toNat = .ok R ∧ ValidPoly R ∧
        extractCodewords R s.ncw.toNat = .ok bytes ∧ bytes.length = s.ncw.toNat ∧
        encodeBody s = .ok (((s.setPg G).setEcc bytes).setEccLen s.ncw)) := by
  by_cases hb : encodeParameterBad s.ncw.toNat s.mlen.toNat
  · exact .inl ⟨hb, if_pos hb⟩
  · have hn := not_encodeParameterBad.1 hb
    obtain ⟨G, hG, hGv⟩ := buildGenerator_valid (n := s.ncw.toNat) (by omega)
    obtain ⟨M, hM, hMv⟩ := loadMessage_valid (bytes := messageBytes s s.mlen.toNat)
      (by rw [messageBytes_length]; omega)
    obtain ⟨R, hR, hRv⟩ := divide_valid hGv (polyShift_valid hMv s.ncw.toNat) s.ncw.toNat
    obtain ⟨b, hb', hbl⟩ := extractCodewords_ok hRv (n := s.ncw.toNat) (by omega)
    refine .inr ⟨hn, G, M, R, b, hG, hGv, hM, hMv, hR, hRv, hb', hbl, ?_⟩
    simp only [encodeBody]
    rw [if_neg hb]
    simp [hG, hM, hR, hb', Except.bind, Except.map]

end Sys2Proof.Laws
end

