-- ==== Sys2Proof/Laws/PerInstr.lean ====
section
/-! SUPPORT. Families of facts about every command as syntax, one lemma per constructor of Instr. -/

/-- The word of a command has `RSV` = 0 and its own opcode in `OP` (R90, R93). -/
def Sys2Proof.Laws.WordFields.Statement (i : Sys2Proof.Instr) : Prop :=
  Sys2Proof.commandRsv (Sys2Proof.encode i) = 0 ∧
  Sys2Proof.commandOp (Sys2Proof.encode i) = Sys2Proof.opcodeOf i

theorem Sys2Proof.Laws.WordFields.toval : Sys2Proof.Laws.WordFields.Statement .toval := ⟨rfl, rfl⟩

theorem Sys2Proof.Laws.WordFields.toexp : Sys2Proof.Laws.WordFields.Statement .toexp := ⟨rfl, rfl⟩

theorem Sys2Proof.Laws.WordFields.gfmul : Sys2Proof.Laws.WordFields.Statement .gfmul := ⟨rfl, rfl⟩

theorem Sys2Proof.Laws.WordFields.gfadd : Sys2Proof.Laws.WordFields.Statement .gfadd := ⟨rfl, rfl⟩

theorem Sys2Proof.Laws.WordFields.genpoly : Sys2Proof.Laws.WordFields.Statement .genpoly := ⟨rfl, rfl⟩

theorem Sys2Proof.Laws.WordFields.encode : Sys2Proof.Laws.WordFields.Statement .encode := ⟨rfl, rfl⟩
end

