-- ==== Sys2Proof/Tests/Slice0.lean ====
section
/-! SUPPORT. Tests of the model against the spec's own vectors (spec/95_test_vectors.md), the smoke test of
WellFormed, and for each statement with hypotheses a state that meets them, at the boundaries of its clauses. -/

namespace Sys2Proof.Tests

open Sys2Proof.Machine Sys2Proof.Safety Sys2Proof.Reference

/-- The state after an outcome, if there is one. -/
def after : Host.Outcome State Fault Refusal → Option State
  | .next t => some t
  | .fault _ => none
  | .refused _ => none

/-- `OPA` = a, `OPB` = b, the rest as after reset. -/
def operands (a b : Cell) : State := { State.reset with opa := a, opb := b }

/-- `NCW` = n, `MSG` and `MLEN` as LDMSG leaves them, the rest as after reset. -/
def message (n : Word) (bytes : List Byte) : State :=
  { State.reset with ncw := n, mlen := BitVec.ofNat 32 bytes.length, msg := numberFrom 0 bytes }

/-- `NCW` = n, `MLEN` = L, the rest as after reset. -/
def parameters (n L : Word) : State := { State.reset with ncw := n, mlen := L }

/-- The core after an InvariantViolation. -/
def halted : State := { State.reset with cause := some .invariantViolation, halt := true }

/-- A step from `s` with `e` as the host's next access gives a next state of which `f` holds. -/
def stepGives (s : State) (e : HostEvent) (f : State → Bool) : Bool :=
  match after (step (s.setScript [e])) with
  | some t => f t
  | none => false

/-! ## Encoding: the words of V-DEC and the table, bit by bit -/

theorem test_word_toval : decode 0b00000000000000000000000000000001#32 = .ok .toval := by decide
theorem test_word_toexp : decode 0b00000000000000000000000000000010#32 = .ok .toexp := by decide
theorem test_word_gfmul : decode 0b00000000000000000000000000000011#32 = .ok .gfmul := by decide
theorem test_word_gfadd : decode 0b00000000000000000000000000000100#32 = .ok .gfadd := by decide
theorem test_word_genpoly : decode 0b00000000000000000000000000010000#32 = .ok .genpoly := by decide
theorem test_word_encode : decode 0b00000000000000000000000000010001#32 = .ok .encode := by decide
theorem test_word_five_rejected : decode 0x00000005 = .error .unassignedOp := by decide
theorem test_word_reserved_rejected : decode 0x80000011 = .error .reservedBitsSet := by decide

/-- The row's word, placed as the first access after reset, is run by the first step (V-DEC row 1). -/
theorem test_first_word_runs :
    (after (step (State.reset.withFetchWord 32 0x00000001))).map (·.res) = some 0x0001 := by decide +kernel

/-! ## WellFormed refuses -/

theorem test_ldmsg_empty_refused : (ScriptLine.ldmsg []).wellFormed = false := by decide
theorem test_ldmsg_256_refused : (ScriptLine.ldmsg (List.replicate 256 0)).wellFormed = false := by decide +kernel
theorem test_ldmsg_255_accepted : (ScriptLine.ldmsg (List.replicate 255 0)).wellFormed = true := by decide +kernel
theorem test_commands_well_formed : ∀ i ∈ opcodeMap.map Prod.snd, i.wellFormed = true := by decide

/-! ## Commands: rows of V-TOVAL, V-TOEXP, V-MUL, V-ADD, V-GEN, V-ENC -/

theorem test_toval_first_reduction :
    (after (exec .toval (operands 0x0008 0))).map (fun t => (t.res, t.cause)) = some (0x001D, none) := by decide +kernel
theorem test_toval_255_halts :
    (after (exec .toval (operands 0x00FF 0))).map (fun t => (t.res, statusWord t)) = some (0x0000, 0x00000006) := by
  decide +kernel
theorem test_toexp_largest_value :
    (after (exec .toexp (operands 0x00FF 0))).map (fun t => (t.res, t.cause)) = some (0x00AF, none) := by decide +kernel
theorem test_toexp_zero_sentinel_halts :
    (after (exec .toexp (operands 0xFFFF 0))).map (fun t => (t.res, statusWord t)) = some (0x0000, 0x00000006) := by
  decide +kernel
theorem test_gfmul_reduces : (after (exec .gfmul (operands 100 200))).map (·.res) = some 45 := by decide +kernel
theorem test_gfmul_zero_with_invalid_halts :
    (after (exec .gfmul (operands 0xFFFF 300))).map statusWord = some 0x00000006 := by decide +kernel
theorem test_gfadd_one_and_two : (after (exec .gfadd (operands 0 1))).map (·.res) = some 25 := by decide +kernel
theorem test_gfadd_equal_gives_zero : (after (exec .gfadd (operands 100 100))).map (·.res) = some 0xFFFF := by
  decide +kernel
theorem test_genpoly_three :
    (after (exec .genpoly (parameters 3 0))).map (fun t => [0, 1, 2, 3, 4, 254].map (readPg t)) =
      some [3, 199, 198, 0, 0xFFFF, 0xFFFF] := by decide +kernel
theorem test_genpoly_255_faults :
    (after (exec .genpoly (parameters 255 0))).map statusWord = some 0x00000001 := by decide +kernel
theorem test_encode_two_bytes :
    (after (exec .encode (message 2 [0x12, 0x34]))).map (fun t => (t.ecc, t.ecclen, t.cause)) =
      some ([(0, 0x22), (1, 0x04)], 2, none) := by decide +kernel
theorem test_encode_inner_cancellation :
    (after (exec .encode (message 2 [0x01, 0x03, 0x00]))).map (·.ecc) = some [(0, 0x06), (1, 0x04)] := by
  decide +kernel

/-! ## The bus: rows of V-BUS, and of P5 -/

theorem test_read_cmd_error :
    stepGives State.reset (.read 0x000) (fun t => t.replies.map (·.response) == [.error]) = true := by decide +kernel
theorem test_wide_opa_refused :
    stepGives State.reset (.write 0x008 0x00010000) (fun t => t.replies == [⟨.error, none⟩] && t.opa == 0) = true := by
  decide +kernel
theorem test_invalid_element_storable :
    stepGives State.reset (.write 0x008 0x0000FFFE) (fun t => t.replies == [⟨.okay, none⟩] && t.opa == 0xFFFE) = true := by
  decide +kernel
theorem test_last_message_entry :
    stepGives State.reset (.write 0x7F8 0x000000FF) (fun t => t.msg == [(254, 0xFF)]) = true := by decide +kernel
theorem test_halted_core_ignores_illegal_word :
    stepGives halted (.write 0x000 0x00000000) (fun t => statusWord t == 0x00000006) = true := by decide +kernel
theorem test_reset_clears_halt :
    stepGives halted .reset (fun t => statusWord t == 0) = true := by decide +kernel

/-! ## Witnesses: states that meet the hypotheses of the statements -/

theorem witness_LdmsgLoadsTheMessage :
    (ScriptLine.ldmsg [0x12]).wellFormed = true ∧ (ScriptLine.ldmsg (List.replicate 255 0)).wellFormed = true := by
  decide +kernel
theorem witness_StepRunsTheDecodedCommand : decode 0x00000003 = .ok .gfmul := by decide
theorem witness_IdleCoreKeepsItsState : State.reset.script = [] := by decide

theorem witness_EveryStepKeepsTheInvariants :
    ∃ s t : State, StateInv s ∧ step s = .next t ∧ t.script ≠ s.script :=
  ⟨State.reset.setScript [.read 0x004], _,
    ⟨by simp [State.reset, State.setScript], by decide, by decide, by decide, by decide, by decide⟩, rfl, by decide⟩
theorem witness_EveryStepKeepsCountedCodewordsWritten :
    ∃ s t : State, EccCounted s ∧ step s = .next t ∧ s.ecclen = 1 :=
  ⟨{ State.reset with ecclen := 1, ecc := [(0, 0x22)] }, _, by unfold EccCounted; decide, rfl, rfl⟩
theorem witness_ReachableStatesMeetTheInvariants :
    ∃ t, Host.Core.run Sys2Proof.core 1 (State.reset.setScript [.write 0x000 0]) = .next t ∧
      t.cause = some .illegalCommand := ⟨_, rfl, rfl⟩

theorem witness_ConversionsAreInverse :
    (0 : Cell).toNat ≤ 255 ∧ (255 : Cell).toNat ≤ 255 ∧ validElem 254 ∧ validElem 0xFFFF := by decide
theorem witness_ScriptLinesAreBusWrites : ((0x00000011 : Word), Instr.encode) ∈ commandWords := by decide
/-- For ProductAndSumOnBytes, ProductAndSumAreCommutativeAndAssociative and ProductDistributesOverSum. -/
theorem witness_ProductAndSum : validElem 0 ∧ validElem 254 ∧ validElem Config.zeroElem := by decide
theorem witness_ZeroIsIdentityAndAbsorbs : validElem 254 ∧ ¬ validElem 255 ∧ ¬ validElem 0xFFFE := by decide
theorem witness_TovalGivesTheValue :
    (operands 0xFFFF 0).halt = false ∧ (operands 0xFFFF 0).opa = 0xFFFF ∧
    (operands 254 0).opa.toNat ≤ 254 ∧ 255 ≤ (operands 255 0).opa.toNat ∧
    (operands 0xFFFE 0).opa.toNat ≤ 0xFFFE := by decide
theorem witness_ToexpGivesTheExponent :
    (operands 0 0).halt = false ∧ (operands 0 0).opa = 0 ∧ 1 ≤ (operands 1 0).opa.toNat ∧
    (operands 255 0).opa.toNat ≤ 255 ∧ 256 ≤ (operands 256 0).opa.toNat := by decide
theorem witness_GfmulAddsExponents :
    (operands 254 254).halt = false ∧ (operands 254 254).opa.toNat ≤ 254 ∧ (operands 254 254).opb.toNat ≤ 254 ∧
    validElem (operands 0xFFFF 254).opa ∧ validElem (operands 0xFFFF 254).opb ∧
    (operands 0xFFFF 254).opa = 0xFFFF ∧ ¬ validElem (operands 0xFFFF 255).opb := by decide
theorem witness_GfaddXorsValues :
    (operands 0 254).halt = false ∧ (operands 0 254).opa ≠ (operands 0 254).opb ∧
    (operands 254 254).opa = (operands 254 254).opb ∧
    (operands 0xFFFF 254).opa = 0xFFFF ∧ validElem (operands 0xFFFF 254).opb ∧
    (operands 254 0xFFFF).opb = 0xFFFF ∧ ¬ validElem (operands 255 0xFFFF).opa := by decide
theorem witness_ScalarCommandsFrame :
    Instr.gfadd ∈ scalarCommands ∧ (after (exec .gfadd (operands 0 1))).isSome = true := by decide +kernel

/-- For GenpolyBuildsAMonicPolynomial, GeneratorConstantCoefficient, GeneratorVanishesAtItsRoots and
GenpolyParameterRule. -/
theorem witness_genpoly_legal :
    (parameters 1 0).halt = false ∧ genpolyLegal (parameters 1 0) ∧ genpolyLegal (parameters 254 0) ∧
    ¬ genpolyLegal (parameters 0 0) ∧ ¬ genpolyLegal (parameters 255 0) := by decide
theorem witness_GenpolyFrame : (after (exec .genpoly (parameters 1 0))).isSome = true := by decide +kernel
/-- For EncodeCompletes, EncodeMakesASystematicCodeword, EncodeParameterRule and RepeatedEncodeChangesNothing. -/
theorem witness_encode_legal :
    (parameters 1 254).halt = false ∧ encodeLegal (parameters 1 254) ∧ encodeLegal (parameters 254 1) ∧
    ¬ encodeLegal (parameters 2 254) ∧ ¬ encodeLegal (parameters 0 1) ∧ ¬ encodeLegal (parameters 1 0) := by decide
theorem witness_EncodeParameterRule :
    (parameters 0 1).ncw.toNat = 0 ∧ 255 < (parameters 256 1).ncw.toNat ∧
    255 < (parameters 2 0xFFFFFFFF).mlen.toNat + (parameters 2 0xFFFFFFFF).ncw.toNat ∧
    (parameters 1 0).mlen.toNat = 0 := by decide
theorem witness_AllZeroMessageGivesZeroCodewords :
    (message 3 [0, 0, 0]).halt = false ∧ encodeLegal (message 3 [0, 0, 0]) ∧
    ∀ k < (message 3 [0, 0, 0]).mlen.toNat, readMsg (message 3 [0, 0, 0]) k = 0 := by decide +kernel
theorem witness_LeadingZeroByteChangesNoCodeword :
    encodeLegal (message 2 [0x12, 0x34]) ∧ encodeLegal (message 2 [0x00, 0x12, 0x34]) ∧
    messageBytes (message 2 [0x00, 0x12, 0x34]) 3 = 0 :: messageBytes (message 2 [0x12, 0x34]) 2 := by decide +kernel
theorem witness_EncodeFrame : (after (exec .encode (message 2 [0x12, 0x34]))).isSome = true := by decide +kernel
theorem witness_ShiftedMessageCells :
    1 ≤ 1 ∧ 1 ≤ (List.replicate 254 (0x01 : Byte)).length ∧ (List.replicate 254 (0x01 : Byte)).length + 1 ≤ 255 := by
  decide +kernel
/-- A number of `ZERO` cells above one cell of value 1. -/
theorem one_above_zeros (n : Nat) :
    (0 :: zeroCells n : PolyFile).length = n + 1 ∧ polyCell (0 :: zeroCells n) 0 = 0 ∧
    (∀ c ∈ (0 :: zeroCells n : PolyFile), validElem c) ∧
    ∀ k, 0 < k → polyCell (0 :: zeroCells n) k = Config.zeroElem := by
  refine ⟨congrArg (· + 1) List.length_replicate, rfl, fun c hc => ?_, fun k hk => ?_⟩
  · rcases List.mem_cons.1 hc with rfl | hc
    · decide
    · exact .inr (List.eq_of_mem_replicate hc)
  · obtain ⟨j, rfl⟩ : ∃ j, k = j + 1 := ⟨k - 1, by omega⟩
    simp only [polyCell, zeroCells, List.getD_eq_getElem?_getD, List.getElem?_cons_succ, List.getElem?_replicate]
    split <;> rfl
theorem witness_DivisionLeavesARemainderBelowN :
    ∃ P : PolyFile, ValidPoly P ∧ polyCell P 0 = 0 ∧ ∀ k, 254 - 254 < k → polyCell P k = Config.zeroElem :=
  have h := one_above_zeros 254
  ⟨0 :: zeroCells 254, ⟨h.1, h.2.2.1⟩, h.2.1, h.2.2.2⟩

theorem witness_ResultsDependOnOperandsOnly :
    sameOperands .encode (message 2 [0x12, 0x34]) { message 2 [0x12, 0x34] with res := 7, opa := 300 } ∧
    (after (exec .encode (message 2 [0x12, 0x34]))).isSome = true :=
  ⟨⟨rfl, rfl, fun _ _ => rfl⟩, by decide +kernel⟩
theorem witness_FaultsAreRaisedByTheirCommands :
    (after (exec .encode (parameters 0 0))).map (·.cause) = some (some .invalidParameter) ∧
    (after (exec .toval (operands 255 0))).map (·.cause) = some (some .invariantViolation) := by decide +kernel
theorem witness_FaultingCommandWritesOnlyStatus :
    stepGives (operands 255 0) (.write 0x000 0x00000001) (fun t => t.cause == some .invariantViolation) = true ∧
    stepGives State.reset (.write 0x000 0x00000010) (fun t => t.cause == some .invalidParameter) = true ∧
    stepGives State.reset (.write 0x000 0x00000111) (fun t => t.cause == some .illegalCommand) = true := by
  decide +kernel
theorem witness_IllegalWordRaisesIllegalCommand :
    State.reset.halt = false ∧ ∀ i ∈ opcodeMap.map Prod.snd, ((0x00000005 : Word), i) ∉ commandWords := by decide
theorem witness_HaltedCoreIgnoresCommands : halted.halt = true := by decide
theorem witness_CauseIsTheOutcomeOfTheLatestCommand :
    State.reset.halt = false ∧ (0x008 : Offset) ≠ 0x000 ∧
    stepGives State.reset (.write 0x008 0x00000007) (fun t => t.opa == 7) = true := by decide +kernel
theorem witness_HaltIsEnteredByViolationAndLeftByReset :
    stepGives (operands 255 0) (.write 0x000 0x00000001) (fun t => t.halt) = true ∧
    stepGives halted .reset (fun t => !t.halt) = true := by decide +kernel
theorem witness_RefusedAccessChangesNothing_read :
    (∀ a ∈ [0x000, 0x009, 0x020, 0x3FC, 0x7FC, 0xBFC, 0xFFC], readRefused a) ∧
    ∀ a ∈ [0x004, 0x01C, 0x400, 0x7F8, 0x800, 0xFF8], ¬ readRefused a := by decide
theorem witness_RefusedAccessChangesNothing_write :
    (∀ p ∈ [(0x004, 0), (0x01C, 0), (0x800, 0), (0xFF8, 0), (0x00C, 0x10000), (0x7F8, 0x100)], writeRefused p.1 p.2) ∧
    ∀ p ∈ [(0x000, 0xFFFFFFFF), (0x008, 0xFFFF), (0x018, 0xFFFFFFFF), (0x400, 0xFF), (0x7F8, 0xFF)],
      ¬ writeRefused p.1 p.2 := by decide
theorem witness_WritesStoreTheData :
    (0x0000FFFF : Word).toNat < 2 ^ 16 ∧ (0x000000FF : Word).toNat < 2 ^ 8 := by decide
theorem witness_WrittenDataIsReadBack :
    regRights (.msg 254) = .rw ∧ (0x000000FF : Word).toNat < 2 ^ regWriteWidth (.msg 254) := by decide

end Sys2Proof.Tests
end

section
/-! PROOFS. R18: the outcome and the results of a command are a function of the operands it names. The checks and
writes of a command are compared at two states that agree on its operands, command by command. -/

namespace Sys2Proof.Noninterference

open Sys2Proof.Machine Sys2Proof.Laws Sys2Proof.Reference

variable {s u : State}

/-! ## What the array updates leave to be read -/

@[simp] theorem readPg_setEccLen (s : State) (n : Word) (k : Nat) : readPg (s.setEccLen n) k = readPg s k := rfl

@[simp] theorem readEcc_setEccLen (s : State) (n : Word) (k : Nat) : readEcc (s.setEccLen n) k = readEcc s k := rfl

@[simp] theorem readPg_setEcc (s : State) (l : List Byte) (k : Nat) : readPg (s.setEcc l) k = readPg s k := rfl

/-- `PG` below the cells written holds the cells, whatever the state was. -/
theorem readPg_setPg_agree {l : List Cell} {k : Nat} (h : k < l.length) (s u : State) :
    readPg (u.setPg l) k = readPg (s.setPg l) k :=
  (readPg_setPg h u).trans (readPg_setPg h s).symm

/-- `ECC` below the bytes written holds the bytes, whatever the state was. -/
theorem readEcc_setEcc_agree {l : List Byte} {k : Nat} (h : k < l.length) (s u : State) :
    readEcc (u.setEcc l) k = readEcc (s.setEcc l) k :=
  (readEcc_setEcc_below h u).trans (readEcc_setEcc_below h s).symm

/-- The message of `L` bytes is a function of `MSG[0..L-1]` (R31). -/
theorem messageBytes_agree {L : Nat} (h : ∀ k < L, readMsg u k = readMsg s k) :
    messageBytes u L = messageBytes s L :=
  List.map_congr_left fun k hk => h k (List.mem_range.1 hk)

/-! ## Two runs of a command's checks and writes -/

/-- Two results of the checks and writes of command `i` show the host the same: the same fault, or the same `HALT`
and the same results. -/
inductive Agree (i : Instr) : Except CommandFault State → Except CommandFault State → Prop where
  | fault (f : CommandFault) : Agree i (.error f) (.error f)
  | done {x y : State} (halt : y.halt = x.halt) (results : sameResults i x y) : Agree i (.ok x) (.ok y)

/-- `complete` writes no register and no array. -/
theorem sameResults_complete {i : Instr} {x y : State} (h : sameResults i x y) :
    sameResults i x.complete y.complete := by
  cases i <;> exact h

/-- If the checks and writes agree, so do the outcomes of the command. -/
theorem exec_agree {i : Instr} {t : State} (hs : s.halt = false) (hu : u.halt = false)
    (h : Agree i (commandBody i s) (commandBody i u)) (ht : exec i s = .next t) :
    ∃ v, exec i u = .next v ∧ v.cause = t.cause ∧ v.halt = t.halt ∧ (t.cause = none → sameResults i t v) := by
  generalize hbs : commandBody i s = r, hbu : commandBody i u = r' at h
  cases h with
  | fault f =>
    cases (exec_error hs hbs).symm.trans ht
    exact ⟨_, exec_error hu hbu, rfl, by simp [hs, hu], by simp⟩
  | done hhalt hres =>
    cases (exec_ok hs hbs).symm.trans ht
    exact ⟨_, exec_ok hu hbu, rfl, hhalt, fun _ => sameResults_complete hres⟩

/-- A command that computes `r` from its operands and puts a value of it in `RES`. -/
theorem setRes_agree {α : Type} {i : Instr} (hi : i ∈ scalarCommands) (hh : u.halt = s.halt)
    (r : Except CommandFault α) (toCell : α → Cell) :
    Agree i (r.map fun a => s.setRes (toCell a)) (r.map fun a => u.setRes (toCell a)) := by
  cases r with
  | error f => exact .fault f
  | ok a =>
    have hres : (u.setRes (toCell a)).res = (s.setRes (toCell a)).res := rfl
    refine .done hh ?_
    cases i with
    | toval | toexp | gfmul | gfadd => exact hres
    | genpoly | encode => simp [scalarCommands] at hi

theorem genpolyBody_bad (h : genpolyParameterBad s.ncw.toNat) : genpolyBody s = .error .invalidParameter := if_pos h

theorem genpolyBody_legal {G : PolyFile} (hn : 1 ≤ s.ncw.toNat ∧ s.ncw.toNat ≤ 254)
    (hG : buildGenerator s.ncw.toNat = .ok G) : genpolyBody s = .ok (s.setPg G) := by
  simp only [genpolyBody]
  rw [if_neg (not_genpolyParameterBad.2 hn), hG]
  rfl

theorem genpolyBody_agree (hh : u.halt = s.halt) (hncw : u.ncw = s.ncw) :
    Agree .genpoly (genpolyBody s) (genpolyBody u) := by
  rcases genpolyBody_cases s with ⟨hbad, hbs⟩ | ⟨hn, G, hG, hGv, hbs⟩
  · rw [hbs, genpolyBody_bad (hncw ▸ hbad)]
    exact .fault _
  · rw [hbs, genpolyBody_legal (hncw ▸ hn) (hncw ▸ hG)]
    exact .done hh fun k hk => readPg_setPg_agree (by rw [hGv.length]; exact hk) s u

theorem encodeBody_bad (h : encodeParameterBad s.ncw.toNat s.mlen.toNat) :
    encodeBody s = .error .invalidParameter := if_pos h

theorem encodeBody_legal {G M R : PolyFile} {bytes : List Byte}
    (hn : 1 ≤ s.ncw.toNat ∧ 1 ≤ s.mlen.toNat ∧ s.mlen.toNat + s.ncw.toNat ≤ 255)
    (hG : buildGenerator s.ncw.toNat = .ok G) (hM : loadMessage (messageBytes s s.mlen.toNat) = .ok M)
    (hR : divide (polyShift M s.ncw.toNat) G s.ncw.toNat = .ok R)
    (hb : extractCodewords R s.ncw.toNat = .ok bytes) :
    encodeBody s = .ok (((s.setPg G).setEcc bytes).setEccLen s.ncw) := by
  simp only [encodeBody]
  rw [if_neg (not_encodeParameterBad.2 hn)]
  simp [hG, hM, hR, hb, Except.bind, Except.map]

/-- The generator, the message polynomial, the remainder and the codewords computed at `s` are those computed at
`u`: each is a function of the operands. -/
theorem encodeBody_agree (hh : u.halt = s.halt) (hncw : u.ncw = s.ncw) (hmlen : u.mlen = s.mlen)
    (hmsg : ∀ k < s.mlen.toNat, readMsg u k = readMsg s k) :
    Agree .encode (encodeBody s) (encodeBody u) := by
  rcases encodeBody_cases s with ⟨hbad, hbs⟩ | ⟨hn, G, M, R, bytes, hG, hGv, hM, -, hR, -, hb, hlen, hbs⟩
  · rw [hbs, encodeBody_bad (by rw [hncw, hmlen]; exact hbad)]
    exact .fault _
  · have hMu : loadMessage (messageBytes u u.mlen.toNat) = .ok M := by
      rw [hmlen, messageBytes_agree hmsg]; exact hM
    rw [hbs, encodeBody_legal (by rw [hncw, hmlen]; exact hn) (hncw ▸ hG) hMu (hncw ▸ hR) (hncw ▸ hb)]
    refine .done hh ⟨fun k hk => ?_, hncw, fun k hk => ?_⟩
    · simp only [readPg_setEccLen, readPg_setEcc]
      exact readPg_setPg_agree (by rw [hGv.length]; exact hk) s u
    · simp only [readEcc_setEccLen]
      exact readEcc_setEcc_agree (by rw [hlen]; exact hk) (s.setPg G) (u.setPg G)

/-- Every command's checks and writes read the operands of R92 and nothing else. -/
theorem commandBody_agree {i : Instr} (hh : u.halt = s.halt) (h : sameOperands i s u) :
    Agree i (commandBody i s) (commandBody i u) := by
  cases i with
  | toval =>
    have hopa : u.opa = s.opa := h
    rw [commandBody_toval, commandBody_toval, hopa]
    exact setRes_agree (by decide) hh _ _
  | toexp =>
    have hopa : u.opa = s.opa := h
    rw [commandBody_toexp, commandBody_toexp, hopa]
    exact setRes_agree (by decide) hh _ id
  | gfmul =>
    obtain ⟨hopa, hopb⟩ := h
    rw [commandBody_gfmul, commandBody_gfmul, hopa, hopb]
    exact setRes_agree (by decide) hh _ id
  | gfadd =>
    obtain ⟨hopa, hopb⟩ := h
    rw [commandBody_gfadd, commandBody_gfadd, hopa, hopb]
    exact setRes_agree (by decide) hh _ id
  | genpoly => exact genpolyBody_agree hh h
  | encode =>
    obtain ⟨hncw, hmlen, hmsg⟩ := h
    exact encodeBody_agree hh hncw hmlen hmsg

/-- Settles O41: the checks and writes of a command agree at two states with the same operands, and the outcome
follows from them. -/
theorem resultsDependOnOperandsOnly : Obligations.ResultsDependOnOperandsOnly := by
  intro i s u t hs hu hops ht
  exact exec_agree hs hu (commandBody_agree (hu.trans hs.symm) hops) ht

end Sys2Proof.Noninterference
end

section
/-! PROOFS. R67 and R68: a read of a readable register and an accepted write of a writable one, each said once for
every register of the map; what the single registers hold is then read off `readReg` and `writeReg`. -/

namespace Sys2Proof.BusAccess

open Sys2Proof.Machine Sys2Proof.Laws Sys2Proof.Reference

variable {s t u : State} {r : Reg} {v : Word} {rest : List HostEvent}

/-! ## The map at the offset of a register (R61) -/

theorem arrayIndex_entry (first : Nat) (i : Fin 255) : arrayIndex first (first + 4 * i) = some i := by
  simp [arrayIndex]

/-- The last entry of an array stands at `first + 4 * 254`, below the next array and below 4096. -/
theorem entry_toNat (first : Nat) (h : first ≤ 0xC00) (i : Fin 255) :
    (BitVec.ofNat 12 (first + 4 * i)).toNat = first + 4 * i := by
  rw [BitVec.toNat_ofNat, Nat.mod_eq_of_lt (by omega)]

/-- The offset of a register is a multiple of 4 (R63). -/
theorem regOffset_aligned (r : Reg) : (regOffset r).toNat % 4 = 0 := by
  cases r with
  | cmd | status | opa | opb | res | ncw | mlen | ecclen => rfl
  | msg i | ecc i | pg i => rw [regOffset, entry_toNat _ (by decide)]; omega

/-- The register at the offset of a register is that register. -/
theorem regAt_regOffset (r : Reg) : regAt (regOffset r).toNat = some r := by
  cases r with
  | cmd | status | opa | opb | res | ncw | mlen | ecclen => rfl
  | msg i =>
    rw [regOffset, entry_toNat _ (by decide), regAt, if_neg (by omega), if_pos (by omega), arrayIndex_entry]
    rfl
  | ecc i =>
    rw [regOffset, entry_toNat _ (by decide), regAt, if_neg (by omega), if_neg (by omega), if_pos (by omega),
      arrayIndex_entry]
    rfl
  | pg i =>
    rw [regOffset, entry_toNat _ (by decide), regAt, if_neg (by omega), if_neg (by omega), if_neg (by omega),
      arrayIndex_entry]
    rfl

theorem decodeOffset_regOffset (r : Reg) : decodeOffset (regOffset r) = .ok r := by
  simp [decodeOffset, regOffset_aligned, regAt_regOffset]

theorem checkRead_regOffset (h : regRights r ≠ .wo) : checkRead (regOffset r) = .ok r := by
  simp [checkRead, decodeOffset_regOffset, h]

theorem checkWrite_regOffset (h : regRights r ≠ .ro) (hv : v.toNat < 2 ^ regWriteWidth r) :
    checkWrite (regOffset r) v = .ok r := by
  simp [checkWrite, decodeOffset_regOffset, h, hv]

/-! ## The step of an access to a register -/

/-- No register is part of the host's script. -/
@[simp] theorem readReg_setScript (s : State) (l : List HostEvent) (r : Reg) :
    readReg (s.setScript l) r = readReg s r := by
  cases r <;> rfl

/-- R67: a read of a readable register is answered `OKAY` with what `readReg` gives, and does nothing else. -/
theorem step_read (s : State) (rest : List HostEvent) (h : regRights r ≠ .wo) :
    step (s.setScript (.read (regOffset r) :: rest)) =
      .next { s with script := rest, replies := ⟨.okay, some (readReg s r)⟩ :: s.replies } := by
  rw [step_cons (setScript_script _ _), perform, busRead, checkRead_regOffset h, ← readReg_setScript s rest r]
  rfl

/-- R68: an accepted write has its register's effect and is answered `OKAY`; the effect leaves the host's side alone. -/
theorem step_write (h : regRights r ≠ .ro) (hv : v.toNat < 2 ^ regWriteWidth r)
    (ht : writeReg r v (s.setScript rest) = .next (t.setScript rest)) (hreplies : t.replies = s.replies) :
    step (s.setScript (.write (regOffset r) v :: rest)) =
      .next { t with script := rest, replies := ⟨.okay, none⟩ :: s.replies } := by
  have hw : writeReg r v ((s.setScript (.write (regOffset r) v :: rest)).setScript rest) =
      .next (t.setScript rest) := ht
  rw [step_cons (setScript_script _ _), perform, busWrite, checkWrite_regOffset h hv]
  simp only [hw]
  rw [State.reply, setScript_replies, hreplies]
  rfl

/-! ## A command leaves the host's side alone -/

theorem commandBody_keeps_host {i : Instr} (h : commandBody i s = .ok u) :
    u.script = s.script ∧ u.replies = s.replies := by
  cases i with
  | toval | toexp | gfmul | gfadd =>
    obtain ⟨c, rfl⟩ := scalarBody_ok (by decide) h
    exact ⟨rfl, rfl⟩
  | genpoly =>
    rw [commandBody] at h
    rcases genpolyBody_cases s with ⟨-, hb⟩ | ⟨-, G, -, -, hb⟩
    · cases hb.symm.trans h
    · cases hb.symm.trans h
      exact ⟨rfl, rfl⟩
  | encode =>
    rw [commandBody] at h
    rcases encodeBody_cases s with ⟨-, hb⟩ | ⟨-, G, M, R, bytes, -, -, -, -, -, -, -, -, hb⟩
    · cases hb.symm.trans h
    · cases hb.symm.trans h
      exact ⟨rfl, rfl⟩

/-- A command ends with the host's side as it was, if its checks and writes leave it so. -/
theorem runCommand_keeps_host {body : State → Except CommandFault State}
    (hbody : ∀ u, body s = .ok u → u.script = s.script ∧ u.replies = s.replies)
    (h : runCommand body s = .next t) : t.script = s.script ∧ t.replies = s.replies := by
  rcases runCommand_cases h with ⟨-, rfl⟩ | ⟨-, u, hu, rfl⟩ | ⟨-, f, -, rfl⟩
  · exact ⟨rfl, rfl⟩
  · exact hbody u hu
  · exact ⟨rfl, rfl⟩

/-- The execution of a command word, legal or not, is no access: it takes none from the script and answers none. -/
theorem executeWord_keeps_host {w : Word} (h : executeWord w s = .next t) :
    t.script = s.script ∧ t.replies = s.replies := by
  unfold executeWord at h
  split at h
  · rw [exec_eq_runCommand] at h
    exact runCommand_keeps_host (fun _ => commandBody_keeps_host) h
  · exact runCommand_keeps_host (fun _ hu => by cases hu) h

/-! ## The statements -/

/-- The layout of `STATUS` as a number (R30). -/
theorem statusWord_eq_statusNumber (s : State) : statusWord s = BitVec.ofNat 32 (statusNumber s.cause s.halt) := by
  rw [statusWord]
  rcases s.cause with _ | _ | _ | _ <;> cases s.halt <;> rfl

/-- Settles O49: the read of any readable register, at the offset and the value of each of them. -/
theorem readsGiveTheStoredValue : Obligations.ReadsGiveTheStoredValue := by
  intro s rest
  have hstatus := step_read (r := .status) s rest (by decide)
  rw [readReg, statusWord_eq_statusNumber] at hstatus
  exact ⟨hstatus, step_read (r := .opa) s rest (by decide), step_read (r := .opb) s rest (by decide),
    step_read (r := .res) s rest (by decide), step_read (r := .ncw) s rest (by decide),
    step_read (r := .mlen) s rest (by decide), step_read (r := .ecclen) s rest (by decide),
    fun i hi => ⟨step_read (r := .msg ⟨i, hi⟩) s rest (by simp [regRights]),
      step_read (r := .ecc ⟨i, hi⟩) s rest (by simp [regRights]),
      step_read (r := .pg ⟨i, hi⟩) s rest (by simp [regRights])⟩⟩

/-- Settles O50: an accepted write has the effect `writeReg` gives its register, and the effect of a write to `CMD`
is the execution of the word, which never fails to give a next state. -/
theorem writesStoreTheData : Obligations.WritesStoreTheData := by
  intro s rest v
  refine ⟨fun hv => ?_, fun hv => ?_, ?_, ?_, fun i hi hv => ?_, ?_⟩
  · rw [← BitVec.setWidth_eq_extractLsb' (by decide)]
    exact step_write (r := .opa) (by decide) hv rfl rfl
  · rw [← BitVec.setWidth_eq_extractLsb' (by decide)]
    exact step_write (r := .opb) (by decide) hv rfl rfl
  · exact step_write (r := .ncw) (by decide) v.isLt rfl rfl
  · exact step_write (r := .mlen) (by decide) v.isLt rfl rfl
  · rw [← BitVec.setWidth_eq_extractLsb' (by decide)]
    exact ⟨s.setMsg i (v.setWidth 8), step_write (r := .msg ⟨i, hi⟩) (by simp [regRights]) hv rfl rfl, rfl,
      readMsg_setMsg_same s i _, fun k hk => readMsg_setMsg_other hk s _⟩
  · obtain ⟨t, ht⟩ := executeWord_next v (s.setScript rest)
    obtain ⟨hscript, hreplies⟩ := executeWord_keeps_host ht
    have hself : t.setScript rest = t := congrArg t.setScript hscript.symm
    exact ⟨t, ht, hreplies, step_write (r := .cmd) (by decide) v.isLt (hself ▸ ht) hreplies⟩

end Sys2Proof.BusAccess
end

section
/-! PROOFS. The command word: the decoder reads a command from exactly the command's own word (R91, R93), and every
other word raises IllegalCommand (R94). -/

namespace Sys2Proof.CommandWord

open Sys2Proof.Machine Sys2Proof.Laws Sys2Proof.Reference

variable {s : State} {w : Word} {i : Instr} {b : Byte}

/-! ## The fields of a word (R90) -/

theorem wordFields (i : Instr) : commandRsv (encode i) = 0 ∧ commandOp (encode i) = opcodeOf i := by
  cases i with
  | toval => exact WordFields.toval
  | toexp => exact WordFields.toexp
  | gfmul => exact WordFields.gfmul
  | gfadd => exact WordFields.gfadd
  | genpoly => exact WordFields.genpoly
  | encode => exact WordFields.encode

/-- `RSV` and `OP` are all of the word: there is no bit outside the two fields. -/
theorem rsv_append_op (w : Word) : commandRsv w ++ commandOp w = w :=
  (BitVec.extractLsb'_append_extractLsb'_eq_extractLsb' rfl).trans BitVec.extractLsb'_eq_self

/-! ## The opcode map (R93) -/

/-- The map's column of opcodes is `opcodeOf`, and every command has a row. -/
theorem lookup_opcodeMap_eq_some_iff : opcodeMap.lookup b = some i ↔ b = opcodeOf i := by
  constructor
  · intro h
    have hrows : ∀ p ∈ opcodeMap, p.1 = opcodeOf p.2 := by decide
    obtain ⟨l₁, l₂, hsplit, -⟩ := List.lookup_eq_some_iff.1 h
    exact hrows (b, i) (by simp [hsplit])
  · rintro rfl
    cases i <;> rfl

/-- The six rows of the statement pair every command with its encoding, and hold no other pair. -/
theorem mem_commandWords_iff : (w, i) ∈ commandWords ↔ w = encode i := by
  constructor
  · have hrows : ∀ p ∈ commandWords, p.1 = encode p.2 := by decide
    exact hrows (w, i)
  · rintro rfl
    cases i <;> decide

/-! ## The decoder (R91) -/

theorem decode_eq_ok_iff_fields : decode w = .ok i ↔ commandRsv w = 0 ∧ opcodeMap.lookup (commandOp w) = some i := by
  unfold decode
  by_cases hrsv : commandRsv w = 0
  · cases hrow : opcodeMap.lookup (commandOp w) <;> simp [hrsv]
  · rw [if_pos hrsv]
    exact ⟨nofun, fun ⟨h, _⟩ => absurd h hrsv⟩

/-- The decoder matches the whole word: it reads `i` from the word of `i` and from no other. -/
theorem decode_eq_ok_iff : decode w = .ok i ↔ w = encode i := by
  rw [decode_eq_ok_iff_fields, lookup_opcodeMap_eq_some_iff]
  constructor
  · rintro ⟨hrsv, hop⟩
    rw [← rsv_append_op w, hrsv, hop, encode]
  · rintro rfl
    exact wordFields i

/-- Settles O1: the word of a command is the only one the decoder reads it from, and the six rows hold the six words. -/
theorem decodeAcceptsExactlyTheSixWords : Obligations.DecodeAcceptsExactlyTheSixWords :=
  ⟨fun _ _ => decode_eq_ok_iff.2 rfl, fun _ _ => decode_eq_ok_iff.trans mem_commandWords_iff.symm⟩

/-! ## Words that are no command (R94) -/

/-- Every rejected word, whatever the reason, is the fault IllegalCommand (R203). -/
theorem executeWord_illegal (hs : s.halt = false) (hw : ∀ i, decode w ≠ .ok i) :
    executeWord w s = .next (s.takeFault .illegalCommand) := by
  unfold executeWord
  split
  · next i hi => exact absurd hi (hw i)
  · exact runCommand_error hs rfl

/-- IllegalCommand sets `CAUSE` alone: only InvariantViolation sets `HALT` (R203). -/
theorem takeFault_illegalCommand (s : State) :
    s.takeFault .illegalCommand = { s with cause := some .illegalCommand } := by
  simp [State.takeFault]

/-- Settles O44: a word outside the six rows does not decode, so its write takes the fault IllegalCommand. -/
theorem illegalWordRaisesIllegalCommand : Obligations.IllegalWordRaisesIllegalCommand := by
  intro s rest w hs hw
  have hreject : ∀ i, decode w ≠ .ok i := fun i hi =>
    hw i ((decodeAcceptsExactlyTheSixWords.2 w i).1 hi)
  have hexec : executeWord w (s.setScript rest) =
      .next ({ s with cause := some .illegalCommand }.setScript rest) := by
    rw [executeWord_illegal (s := s.setScript rest) hs hreject, takeFault_illegalCommand]
    rfl
  refine ⟨_, BusAccess.step_write (r := .cmd) (by decide) w.isLt hexec rfl, rfl, ?_⟩
  rw [BusAccess.statusWord_eq_statusNumber, hs]
  rfl

end Sys2Proof.CommandWord
end

section
/-! PROOFS. TOVAL and TOEXP: what each conversion gives for every operand (R115, R116), and from it the state the
command ends in (R117, R118). -/

namespace Sys2Proof.Conversions

open Sys2Proof.Machine Sys2Proof.Laws

variable {s : State} {e v : Cell}

/-! ## The conversions, operand by operand -/

theorem toValue_zeroElem : toValue Config.zeroElem = .ok 0 := by
  rw [toValue_valid validElem_zeroElem, if_pos rfl]

theorem toValue_exponent (h : e.toNat ≤ 254) : toValue e = .ok (expTable e.toNat) := by
  rw [toValue_valid (validElem_of_le h), if_neg (ne_zeroElem_of_le h)]

/-- The operands between the exponents and `ZERO` are no elements (R12). -/
theorem not_validElem_of_between (hlo : 255 ≤ e.toNat) (hhi : e.toNat ≤ 0xFFFE) : ¬ validElem e := by
  rintro (hle | rfl)
  · omega
  · exact absurd hhi (by decide)

theorem toExponent_zero : toExponent 0 = .ok Config.zeroElem := rfl

theorem toExponent_nonzero (hlo : 1 ≤ v.toNat) (hhi : v.toNat ≤ 255) :
    toExponent v = .ok ((logTable v.toNat).setWidth 16) := by
  have hne : v ≠ 0 := by
    rintro rfl
    exact absurd hlo (by decide)
  rw [toExponent, if_neg (by omega), if_neg hne]

theorem toExponent_invalid (h : 256 ≤ v.toNat) : toExponent v = .error .invariantViolation := by
  rw [toExponent, if_pos (by omega)]

/-! ## The commands, from the result of the conversion -/

theorem exec_toval_ok {b : Byte} (hs : s.halt = false) (h : toValue s.opa = .ok b) :
    exec .toval s = .next { s with res := b.setWidth 16, cause := none } :=
  exec_ok (u := s.setRes (b.setWidth 16)) hs (by rw [commandBody_toval, h, Except.map])

theorem exec_toexp_ok (hs : s.halt = false) (h : toExponent s.opa = .ok e) :
    exec .toexp s = .next { s with res := e, cause := none } :=
  exec_ok (u := s.setRes e) hs (by rw [commandBody_toexp, h, Except.map])

/-- InvariantViolation sets `CAUSE` and `HALT`, and nothing else (R204, R206). -/
theorem takeFault_invariantViolation (s : State) :
    s.takeFault .invariantViolation = { s with cause := some .invariantViolation, halt := true } := by
  simp [State.takeFault]

theorem exec_invariantViolation {i : Instr} (hs : s.halt = false)
    (h : commandBody i s = .error .invariantViolation) :
    exec i s = .next { s with cause := some .invariantViolation, halt := true } := by
  rw [exec_error hs h, takeFault_invariantViolation]

/-! ## The statements -/

/-- Settles O22: `ZERO`, an exponent and no element are the three kinds of operand of `toValue`. -/
theorem tovalGivesTheValue : Obligations.TovalGivesTheValue := by
  refine ⟨CommandWord.decode_eq_ok_iff.2 rfl, fun s hs => ⟨fun hzero => ?_, fun hexp => ?_, fun hlo hhi => ?_⟩⟩
  · exact exec_toval_ok hs ((congrArg _ hzero).trans toValue_zeroElem)
  · exact exec_toval_ok hs (toValue_exponent hexp)
  · have hfault := toValue_invalid (not_validElem_of_between hlo hhi)
    exact exec_invariantViolation hs (by rw [commandBody_toval, hfault, Except.map])

/-- Settles O23: the byte 0, any other byte and no byte are the three kinds of operand of `toExponent`. -/
theorem toexpGivesTheExponent : Obligations.ToexpGivesTheExponent := by
  refine ⟨CommandWord.decode_eq_ok_iff.2 rfl, fun s hs => ⟨fun hzero => ?_, fun hlo hhi => ?_, fun hbig => ?_⟩⟩
  · exact exec_toexp_ok hs ((congrArg _ hzero).trans toExponent_zero)
  · exact exec_toexp_ok hs (toExponent_nonzero hlo hhi)
  · exact exec_invariantViolation hs (by rw [commandBody_toexp, toExponent_invalid hbig, Except.map])

end Sys2Proof.Conversions
end

section
/-! PROOFS. GFMUL and GFADD: what the field product and the field sum give for every pair of operands (R130 to R132,
R135), and from it the state the command ends in (R133, R134). -/

namespace Sys2Proof.FieldArithmetic

open Sys2Proof.Machine Sys2Proof.Laws Sys2Proof.Conversions

variable {s : State} {a b c : Cell} {v : Byte}

/-! ## `ZERO` in the product and the sum (R135) -/

/-- Settles O21: for an element, `ZERO` is the identity of the sum and absorbs under the product; any other operand
faults on either side. -/
theorem zeroIsIdentityAndAbsorbs : Obligations.ZeroIsIdentityAndAbsorbs := by
  refine fun a => ⟨fun ha => ⟨?_, ?_, ?_, ?_⟩, fun ha => ⟨?_, ?_, ?_, ?_⟩⟩
  · exact combine_zero_right ha
  · exact combine_zero_left ha
  · exact addExponents_zero ha validElem_zeroElem (.inr rfl)
  · exact addExponents_zero validElem_zeroElem ha (.inl rfl)
  · exact combine_invalid (.inl ha)
  · exact combine_invalid (.inr ha)
  · exact addExponents_invalid (.inl ha)
  · exact addExponents_invalid (.inr ha)

/-! ## The sum of two exponents (R131) -/

/-- `LOG` undoes `EXP` on the exponents (R112). -/
theorem logTable_expTable : ∀ i < 255, (logTable (expTable i).toNat).toNat = i := by decide +kernel

/-- Different exponents have different bytes. -/
theorem expTable_ne (ha : a.toNat ≤ 254) (hb : b.toNat ≤ 254) (hne : a ≠ b) :
    expTable a.toNat ≠ expTable b.toNat := by
  intro h
  refine hne (BitVec.eq_of_toNat_eq ?_)
  rw [← logTable_expTable a.toNat (by omega), h, logTable_expTable b.toNat (by omega)]

/-- A nonzero byte is in the range where `to_exponent` looks it up (R116). -/
theorem toExponent_byte_nonzero (hv : v ≠ 0) :
    toExponent (v.setWidth 16) = .ok ((logTable v.toNat).setWidth 16) := by
  have hwiden : (v.setWidth 16).toNat = v.toNat := BitVec.toNat_setWidth_of_le (by decide)
  have hpos : v.toNat ≠ 0 := fun h => hv (BitVec.eq_of_toNat_eq h)
  rw [toExponent_nonzero (by omega) (by omega), hwiden]

theorem combine_distinct (ha : a.toNat ≤ 254) (hb : b.toNat ≤ 254) (hne : a ≠ b) :
    combine a b = .ok ((logTable (expTable a.toNat ^^^ expTable b.toNat).toNat).setWidth 16) := by
  have hxor : expTable a.toNat ^^^ expTable b.toNat ≠ 0 := fun h =>
    expTable_ne ha hb hne (BitVec.xor_eq_zero_iff.1 h)
  rw [combine_exponents ha hb, toExponent_byte_nonzero hxor]

/-- Every exponent is its own negative: the bytes cancel. -/
theorem combine_self (ha : a.toNat ≤ 254) : combine a a = .ok Config.zeroElem := by
  rw [combine_exponents ha ha, BitVec.xor_self]
  exact toExponent_zero

/-! ## The commands, from the result of the field operation -/

theorem exec_gfmul_ok (hs : s.halt = false) (h : addExponents s.opa s.opb = .ok c) :
    exec .gfmul s = .next { s with res := c, cause := none } :=
  exec_ok (u := s.setRes c) hs (by rw [commandBody_gfmul, h, Except.map])

theorem exec_gfadd_ok (hs : s.halt = false) (h : combine s.opa s.opb = .ok c) :
    exec .gfadd s = .next { s with res := c, cause := none } :=
  exec_ok (u := s.setRes c) hs (by rw [commandBody_gfadd, h, Except.map])

/-! ## The statements -/

/-- Settles O24: two exponents, a pair of elements with `ZERO` in it, and a pair with no element in one place are the
three kinds of operands of `addExponents`. -/
theorem gfmulAddsExponents : Obligations.GfmulAddsExponents := by
  refine ⟨CommandWord.decode_eq_ok_iff.2 rfl, fun s hs =>
    ⟨fun ha hb => ?_, fun ha hb hzero => ?_, fun hinvalid => ?_⟩⟩
  · exact exec_gfmul_ok hs (addExponents_exponents ha hb)
  · exact exec_gfmul_ok hs (addExponents_zero ha hb hzero)
  · exact exec_invariantViolation hs (by rw [commandBody_gfmul, addExponents_invalid hinvalid, Except.map])

/-- Settles O25: two exponents that differ or agree, `ZERO` on either side, and a pair with no element in one place
are the kinds of operands of `combine`. -/
theorem gfaddXorsValues : Obligations.GfaddXorsValues := by
  refine ⟨CommandWord.decode_eq_ok_iff.2 rfl, fun s hs =>
    ⟨fun ha hb hne => ?_, fun ha _ heq => ?_, fun hzero hb => ?_, fun hzero ha => ?_, fun hinvalid => ?_⟩⟩
  · exact exec_gfadd_ok hs (combine_distinct ha hb hne)
  · exact exec_gfadd_ok hs (heq ▸ combine_self ha)
  · exact exec_gfadd_ok hs ((congrArg (combine · s.opb) hzero).trans (combine_zero_left hb))
  · exact exec_gfadd_ok hs ((congrArg (combine s.opa) hzero).trans (combine_zero_right ha))
  · exact exec_invariantViolation hs (by rw [commandBody_gfadd, combine_invalid hinvalid, Except.map])

end Sys2Proof.FieldArithmetic
end

section
/-! PROOFS. GENPOLY: its parameter decides how it ends, and with a legal one it leaves the generator it built in `PG`
(R150, R151). -/

namespace Sys2Proof.GeneratorCommand

open Sys2Proof.Machine Sys2Proof.Laws Sys2Proof.Reference Sys2Proof.Safety

variable {s : State}

/-- InvalidParameter sets `CAUSE` alone: only InvariantViolation sets `HALT` (R205). -/
theorem takeFault_invalidParameter (s : State) :
    s.takeFault .invalidParameter = { s with cause := some .invalidParameter } := by
  simp [State.takeFault]

/-- No field operation of the build faults, so GENPOLY with a legal parameter writes its generator and completes. -/
theorem exec_genpoly_legal (hs : s.halt = false) (hn : genpolyLegal s) :
    ∃ G, buildGenerator s.ncw.toNat = .ok G ∧ ValidPoly G ∧ exec .genpoly s = .next (s.setPg G).complete := by
  obtain ⟨G, hG, hvalid⟩ := buildGenerator_valid hn
  exact ⟨G, hG, hvalid, exec_ok hs (Noninterference.genpolyBody_legal hn hG)⟩

theorem exec_genpoly_illegal (hs : s.halt = false) (hn : ¬ genpolyLegal s) :
    exec .genpoly s = .next { s with cause := some .invalidParameter } := by
  have hbad : genpolyParameterBad s.ncw.toNat := not_not.1 (mt not_genpolyParameterBad.1 hn)
  have hfault : commandBody .genpoly s = .error .invalidParameter := Noninterference.genpolyBody_bad hbad
  rw [exec_error hs hfault, takeFault_invalidParameter]

/-- Settles O30: a legal parameter ends the command in `complete`, and any other in the fault InvalidParameter. -/
theorem genpolyParameterRule : Obligations.GenpolyParameterRule := by
  refine fun s hs => ⟨fun hn => ?_, exec_genpoly_illegal hs⟩
  obtain ⟨G, -, -, hexec⟩ := exec_genpoly_legal hs hn
  exact ⟨_, hexec, complete_cause (s.setPg G)⟩

end Sys2Proof.GeneratorCommand
end

section
/-! PROOFS. ENCODE: its parameters decide how it ends (R171), where the message bytes stand after the load and the
shift (R173 to R175), and that the all-zero message passes through the division untouched (R177). -/

namespace Sys2Proof.EncodeCommand

open Sys2Proof.Machine Sys2Proof.Laws

variable {s : State}

/-! ## The parameters (R171) -/

theorem exec_encode_illegal (hs : s.halt = false) (hbad : encodeParameterBad s.ncw.toNat s.mlen.toNat) :
    exec .encode s = .next { s with cause := some .invalidParameter } := by
  have hfault : commandBody .encode s = .error .invalidParameter := Noninterference.encodeBody_bad hbad
  rw [exec_error hs hfault, GeneratorCommand.takeFault_invalidParameter]

/-- Settles O34: a parameter out of range ends the command in the fault InvalidParameter; with legal ones no step of
the encoder faults, and the command ends in `complete`. -/
theorem encodeParameterRule : Obligations.EncodeParameterRule := by
  refine fun s hs => ⟨exec_encode_illegal hs, fun hgood => ?_⟩
  rcases encodeBody_cases s with ⟨hbad, -⟩ | ⟨-, _, _, _, _, -, -, -, -, -, -, -, -, hbody⟩
  · exact absurd hbad hgood
  · exact ⟨_, exec_ok hs hbody, complete_cause _⟩

/-! ## The cells of the message polynomial (R173 to R175) -/

theorem polyCell_of_length_le {P : PolyFile} {k : Nat} (h : P.length ≤ k) : polyCell P k = Config.zeroElem := by
  simp [polyCell, h]

theorem polyCell_of_lt {P : PolyFile} {k : Nat} (h : k < P.length) : polyCell P k = P[k] := by
  simp [polyCell, h]

/-- Cell `k` of a polynomial of `cells` filled up with `ZERO`. -/
theorem polyCell_append_zeroCells (cells : PolyFile) (count k : Nat) :
    polyCell (cells ++ zeroCells count) k = polyCell cells k := by
  simp only [polyCell, List.getD_eq_getElem?_getD, List.getElem?_append, zeroCells_getElem?]
  split
  · rfl
  · next h =>
    rw [List.getElem?_eq_none (by omega)]
    split <;> rfl

/-- The loaded message: byte `t` in cell `L - 1 - t`, `ZERO` from cell `L` up (R173). -/
theorem loadMessage_cells {bytes : List Byte} {M : PolyFile} (h : loadMessage bytes = .ok M) :
    (∀ k, bytes.length ≤ k → polyCell M k = Config.zeroElem) ∧
    ∀ (t : Nat) (ht : t < bytes.length),
      toExponent (bytes[t].setWidth 16) = .ok (polyCell M (bytes.length - 1 - t)) := by
  unfold loadMessage at h
  cases hcells : mapLanes (fun b : Byte => toExponent (b.setWidth 16)) bytes.reverse with
  | error f => rw [hcells] at h; cases h
  | ok cells =>
    rw [hcells] at h
    cases h
    have hlen : cells.length = bytes.length := (mapLanes_length hcells).trans List.length_reverse
    simp only [polyCell_append_zeroCells]
    refine ⟨fun k hk => polyCell_of_length_le (hlen.trans_le hk), fun t ht => ?_⟩
    have hlane := mapLanes_lane hcells (bytes.length - 1 - t) (by rw [List.length_reverse]; omega)
    have hback : bytes.length - 1 - (bytes.length - 1 - t) = t := by omega
    simp only [List.getElem_reverse, hback] at hlane
    rw [hlane, polyCell_of_lt (by omega)]

/-- Settles O38: the shift moves cell `L - 1 - t` of the loaded message to cell `n + L - 1 - t`, and brings in `ZERO`
below. -/
theorem shiftedMessageCells : Obligations.ShiftedMessageCells := by
  intro bytes n hn hL hcap
  obtain ⟨M, hM, hvalid⟩ := loadMessage_valid (bytes := bytes) (by omega)
  obtain ⟨habove, hbyte⟩ := loadMessage_cells hM
  have hlen : (polyShift M n).length = 255 := (polyShift_valid hvalid n).length
  refine ⟨M, hM, hlen, habove, fun t ht => ?_, fun k hk => ?_, fun k hk => ?_⟩
  · have hcell : n + bytes.length - 1 - t - n = bytes.length - 1 - t := by omega
    rw [polyShift_cell M n _ (by omega), if_pos (by omega), hcell]
    exact hbyte t ht
  · rw [polyShift_cell M n k (by omega), if_neg (by omega)]
  · rcases Nat.lt_or_ge k 255 with hin | hout
    · rw [polyShift_cell M n k hin, if_pos (by omega)]
      exact habove _ (by omega)
    · exact polyCell_of_length_le (hlen.trans_le hout)

/-! ## The all-zero message (R177) -/

theorem mapLanes_replicate {α β : Type} {f : α → Except CommandFault β} {a : α} {b : β} (h : f a = .ok b)
    (count : Nat) : mapLanes f (List.replicate count a) = .ok (List.replicate count b) := by
  induction count with
  | zero => rfl
  | succ count ih => simp [List.replicate_succ, mapLanes, h, ih, Except.bind, Except.map]

theorem messageBytes_zero {L : Nat} (h : ∀ k < L, readMsg s k = 0) : messageBytes s L = List.replicate L 0 := by
  refine List.eq_replicate_iff.2 ⟨messageBytes_length s L, fun b hb => ?_⟩
  obtain ⟨k, hk, rfl⟩ := List.mem_map.1 hb
  exact h k (List.mem_range.1 hk)

theorem zeroCells_append (a b : Nat) : zeroCells a ++ zeroCells b = zeroCells (a + b) :=
  List.replicate_append_replicate

theorem zeroCells_take (a b : Nat) : (zeroCells a).take b = zeroCells (min b a) := List.take_replicate

theorem loadMessage_zero {L : Nat} (h : L ≤ 255) : loadMessage (List.replicate L 0) = .ok (zeroCells 255) := by
  have hlanes := mapLanes_replicate (f := fun b : Byte => toExponent (b.setWidth 16)) (a := 0)
    Conversions.toExponent_zero L
  rw [loadMessage, List.reverse_replicate, hlanes, List.length_replicate, Except.map]
  exact congrArg Except.ok ((zeroCells_append L (255 - L)).trans (by rw [Nat.add_sub_of_le h]))

theorem polyShift_zero (n : Nat) : polyShift (zeroCells 255) n = zeroCells 255 := by
  rw [polyShift, zeroCells_append, zeroCells_take, Config.polyCap_eq, Nat.min_eq_left (by omega)]

/-- The zero polynomial has no degree, so the division makes no iteration. -/
theorem divide_zero (G : PolyFile) (n count : Nat) : divide (zeroCells count) G n = .ok (zeroCells count) := by
  have hdegree : degree (zeroCells count) = none := degree_eq_none.2 fun _ => mem_zeroCells
  simp only [divide, hdegree]

theorem extractCodewords_zero {n : Nat} (h : n ≤ 255) :
    extractCodewords (zeroCells 255) n = .ok (List.replicate n 0) := by
  rw [extractCodewords, zeroCells_take, Nat.min_eq_left h, zeroCells, List.reverse_replicate,
    mapLanes_replicate Conversions.toValue_zeroElem]

/-- Settles O35: the message polynomial is `ZERO` after the load and the shift, the division leaves it so, and its
cells are read out as bytes 0x00. -/
theorem allZeroMessageGivesZeroCodewords : Obligations.AllZeroMessageGivesZeroCodewords := by
  intro s hs hn hmsg
  obtain ⟨hn1, hL1, hcap⟩ := hn
  obtain ⟨G, hG, -⟩ := buildGenerator_valid (n := s.ncw.toNat) ⟨hn1, by omega⟩
  have hM : loadMessage (messageBytes s s.mlen.toNat) = .ok (zeroCells 255) := by
    rw [messageBytes_zero hmsg, loadMessage_zero (by omega)]
  have hR : divide (polyShift (zeroCells 255) s.ncw.toNat) G s.ncw.toNat = .ok (zeroCells 255) := by
    rw [polyShift_zero, divide_zero]
  have hbytes := extractCodewords_zero (n := s.ncw.toNat) (by omega)
  have hbody : commandBody .encode s = _ := Noninterference.encodeBody_legal ⟨hn1, hL1, hcap⟩ hG hM hR hbytes
  refine ⟨_, exec_ok hs hbody, complete_cause _, rfl, fun k hk => ?_⟩
  calc readEcc ((s.setPg G).setEcc (List.replicate s.ncw.toNat 0)) k
    _ = (List.replicate s.ncw.toNat 0)[k]'(by simpa using hk) := readEcc_setEcc_below (by simpa using hk) _
    _ = 0 := List.getElem_replicate _

end Sys2Proof.EncodeCommand
end

section
/-! PROOFS. A command word that faults (R204 to R208): it ends in `takeFault`, the one operation that writes `STATUS`
for a fault, and the write that carried the word adds its own answer. -/

namespace Sys2Proof.FaultEntry

open Sys2Proof.Machine Sys2Proof.Laws Sys2Proof.Reference

variable {s t : State} {f : CommandFault}

/-- A fault in `CAUSE` after a command was raised by it: a command that completes clears `CAUSE`. -/
theorem runCommand_fault {body : State → Except CommandFault State} (hs : s.halt = false)
    (h : runCommand body s = .next t) (hf : t.cause = some f) : t = s.takeFault f := by
  rcases runCommand_cases h with ⟨hhalt, -⟩ | ⟨-, u, -, rfl⟩ | ⟨-, g, -, rfl⟩
  · exact absurd hhalt (by simp [hs])
  · cases hf
  · cases hf
    rfl

/-- A word executed with a fault has no effect but that of taking the fault, be it the word of a command or not. -/
theorem executeWord_fault {w : Word} (hs : s.halt = false) (h : executeWord w s = .next t) (hf : t.cause = some f) :
    t = s.takeFault f := by
  unfold executeWord at h
  split at h
  · rw [exec_eq_runCommand] at h
    exact runCommand_fault hs h hf
  · exact runCommand_fault hs h hf

/-- The number of `STATUS` needs three bits, so the register holds it exactly (R30). -/
theorem statusWord_toNat (s : State) : (statusWord s).toNat = statusNumber s.cause s.halt := by
  have hlt : statusNumber s.cause s.halt < 8 := by
    rcases s.cause with _ | _ | _ | _ <;> cases s.halt <;> decide
  rw [BusAccess.statusWord_eq_statusNumber, BitVec.toNat_ofNat]
  exact Nat.mod_eq_of_lt (by omega)

/-- Settles O43: the write executes its word and adds the answer `OKAY`, and the execution took the fault. -/
theorem faultingCommandWritesOnlyStatus : Obligations.FaultingCommandWritesOnlyStatus := by
  intro s t rest w f hs hstep hf
  obtain ⟨-, -, -, -, -, u, hexec, -, hwrite⟩ := BusAccess.writesStoreTheData s rest w
  cases hwrite.symm.trans hstep
  have hu : u = (s.setScript rest).takeFault f := executeWord_fault hs hexec hf
  subst hu
  have hhalt : (s.halt || decide (f = .invariantViolation)) = decide (f = .invariantViolation) := by
    rw [hs, Bool.false_or]
  constructor
  · rw [← hhalt]
    rfl
  · rw [statusWord_toNat, ← hhalt]
    rfl

end Sys2Proof.FaultEntry
end

section
/-! PROOFS. What a command, an executed word, an accepted write and a step can do, said once; and the invariants that
follow: a predicate that every update a step makes keeps is kept by every step and every run (R39, R207, R237). -/

namespace Sys2Proof.StepCases

open Sys2Proof.Machine Sys2Proof.Laws Sys2Proof.Safety Sys2Proof.Reference

variable {s t u : State} {i : Instr} {f : CommandFault} {w : Word} {r : Reg}

/-! ## The checks and writes of a command -/

/-- The only fault of a field operation is InvariantViolation (R132). -/
theorem toValue_fault {e : Cell} (h : toValue e = .error f) : f = .invariantViolation := by
  by_cases he : validElem e
  · cases (toValue_valid he).symm.trans h
  · cases (toValue_invalid he).symm.trans h
    rfl

theorem toExponent_fault {v : Cell} (h : toExponent v = .error f) : f = .invariantViolation := by
  by_cases hv : v.toNat ≤ 255
  · obtain ⟨e, he, -⟩ := toExponent_valid hv
    cases he.symm.trans h
  · cases (Conversions.toExponent_invalid (by omega)).symm.trans h
    rfl

theorem addExponents_fault {a b : Cell} (h : addExponents a b = .error f) : f = .invariantViolation := by
  by_cases hab : validElem a ∧ validElem b
  · obtain ⟨c, hc, -⟩ := addExponents_valid hab.1 hab.2
    cases hc.symm.trans h
  · cases (addExponents_invalid (not_and_or.1 hab)).symm.trans h
    rfl

theorem combine_fault {a b : Cell} (h : combine a b = .error f) : f = .invariantViolation := by
  by_cases hab : validElem a ∧ validElem b
  · obtain ⟨c, hc, -⟩ := combine_valid hab.1 hab.2
    cases hc.symm.trans h
  · cases (combine_invalid (not_and_or.1 hab)).symm.trans h
    rfl

theorem error_of_map_error {ε α β : Type} {g : α → β} {x : Except ε α} {e : ε} (h : x.map g = .error e) :
    x = .error e := by
  cases x with
  | error e' => cases h; rfl
  | ok a => cases h

/-- What a command writes when it succeeds (R92): `RES`, or the generator, or the generator and the codewords. -/
theorem commandBody_ok_cases (h : commandBody i s = .ok u) :
    (i ∈ scalarCommands ∧ ∃ c, u = s.setRes c) ∨
    (i = .genpoly ∧ ∃ G, ValidPoly G ∧ u = s.setPg G) ∨
    (i = .encode ∧ s.ncw.toNat ≤ 254 ∧ ∃ G bytes, ValidPoly G ∧ bytes.length = s.ncw.toNat ∧
      u = ((s.setPg G).setEcc bytes).setEccLen s.ncw) := by
  cases i with
  | toval | toexp | gfmul | gfadd => exact .inl ⟨by decide, scalarBody_ok (by decide) h⟩
  | genpoly =>
    rcases genpolyBody_cases s with ⟨-, hb⟩ | ⟨-, G, -, hG, hb⟩
    · cases hb.symm.trans h
    · cases hb.symm.trans h
      exact .inr (.inl ⟨rfl, G, hG, rfl⟩)
  | encode =>
    rcases encodeBody_cases s with ⟨-, hb⟩ | ⟨hn, G, _, _, bytes, -, hG, -, -, -, -, -, hlen, hb⟩
    · cases hb.symm.trans h
    · cases hb.symm.trans h
      exact .inr (.inr ⟨rfl, by omega, G, bytes, hG, hlen, rfl⟩)

/-- Which command raises which fault (R200). -/
theorem commandBody_error_cases (h : commandBody i s = .error f) :
    (i ∈ scalarCommands ∧ f = .invariantViolation) ∨
    ((i = .genpoly ∨ i = .encode) ∧ f = .invalidParameter) := by
  cases i with
  | toval => exact .inl ⟨by decide, toValue_fault (error_of_map_error h)⟩
  | toexp => exact .inl ⟨by decide, toExponent_fault (error_of_map_error h)⟩
  | gfmul => exact .inl ⟨by decide, addExponents_fault (error_of_map_error h)⟩
  | gfadd => exact .inl ⟨by decide, combine_fault (error_of_map_error h)⟩
  | genpoly =>
    rcases genpolyBody_cases s with ⟨-, hb⟩ | ⟨-, _, -, -, hb⟩
    · cases hb.symm.trans h
      exact .inr ⟨.inl rfl, rfl⟩
    · cases hb.symm.trans h
  | encode =>
    rcases encodeBody_cases s with ⟨-, hb⟩ | ⟨-, _, _, _, _, -, -, -, -, -, -, -, -, hb⟩
    · cases hb.symm.trans h
      exact .inr ⟨.inr rfl, rfl⟩
    · cases hb.symm.trans h

/-- The three ways a command ends, by the outcome of its checks and writes. -/
theorem exec_cases (h : exec i s = .next t) :
    (s.halt = true ∧ t = s) ∨
    (s.halt = false ∧ ∃ u, commandBody i s = .ok u ∧ t = u.complete) ∨
    (s.halt = false ∧ ∃ f, commandBody i s = .error f ∧ t = s.takeFault f) :=
  runCommand_cases (exec_eq_runCommand i s ▸ h)

/-- Settles O42: a command that completes clears `CAUSE`, and one that faults has the fault of its own checks. -/
theorem faultsAreRaisedByTheirCommands : Obligations.FaultsAreRaisedByTheirCommands := by
  intro i s t hs h
  rcases exec_cases h with ⟨hhalt, -⟩ | ⟨-, u, -, rfl⟩ | ⟨-, f, hf, rfl⟩
  · exact absurd hhalt (by simp [hs])
  · simp
  · rcases commandBody_error_cases hf with ⟨hi, rfl⟩ | ⟨hi, rfl⟩
    · simp [hi]
    · simp [hi]

/-! ## Executed words, writes and steps -/

/-- The ways the execution of a word ends (R91, R94, R207). -/
theorem executeWord_cases (h : executeWord w s = .next t) :
    (s.halt = true ∧ t = s) ∨
    (s.halt = false ∧ ∃ i u, decode w = .ok i ∧ commandBody i s = .ok u ∧ t = u.complete) ∨
    (s.halt = false ∧ ∃ i f, decode w = .ok i ∧ commandBody i s = .error f ∧ t = s.takeFault f) ∨
    (s.halt = false ∧ t = s.takeFault .illegalCommand) := by
  unfold executeWord at h
  split at h
  · next i hi =>
    rcases exec_cases h with hidle | ⟨hs, u, hu, ht⟩ | ⟨hs, f, hf, ht⟩
    · exact .inl hidle
    · exact .inr (.inl ⟨hs, i, u, hi, hu, ht⟩)
    · exact .inr (.inr (.inl ⟨hs, i, f, hi, hf, ht⟩))
  · rcases runCommand_cases h with hidle | ⟨-, u, hu, -⟩ | ⟨hs, f, hf, ht⟩
    · exact .inl hidle
    · cases hu
    · cases hf
      exact .inr (.inr (.inr ⟨hs, ht⟩))

/-- An accepted write executes the word, stores one entry of `MSG`, or stores a scalar operand (R68). -/
theorem writeReg_cases (h : writeReg r w s = .next t) :
    (r = .cmd ∧ executeWord w s = .next t) ∨
    (∃ k : Fin 255, r = .msg k ∧ t = s.setMsg k (w.setWidth 8)) ∨
    t = { s with opa := t.opa, opb := t.opb, ncw := t.ncw, mlen := t.mlen } := by
  cases r with
  | cmd => exact .inl ⟨rfl, h⟩
  | msg k => cases h; exact .inr (.inl ⟨k, rfl, rfl⟩)
  | status | opa | opb | res | ncw | mlen | ecclen | ecc k | pg k => cases h; exact .inr (.inr rfl)

/-- A step is idle, or performs the host's next access: a read answers and at most counts a draw, a write has the effect
of the register it reaches or is refused, the reset input puts the reset values. -/
theorem step_cases (h : step s = .next t) :
    (s.script = [] ∧ t = s) ∨
    ∃ e rest, s.script = e :: rest ∧
      ((∃ off d, e = .read off ∧
          (t = (s.setScript rest).reply .okay (some d) ∨ t = (s.setScript rest).countDraw.reply .error (some d))) ∨
        (∃ off v r u, e = .write off v ∧ checkWrite off v = .ok r ∧ writeReg r v (s.setScript rest) = .next u ∧
          t = u.reply .okay none) ∨
        (∃ off v, e = .write off v ∧ t = (s.setScript rest).reply .error none) ∨
        (e = .reset ∧ t = (s.setScript rest).applyReset)) := by
  cases hscript : s.script with
  | nil =>
    cases (step_idle hscript).symm.trans h
    exact .inl ⟨rfl, rfl⟩
  | cons e rest =>
    rw [step_cons hscript] at h
    refine .inr ⟨e, rest, rfl, ?_⟩
    cases e with
    | read off =>
      rcases busRead_cases off (s.setScript rest) with ⟨r, -, hr⟩ | ⟨_, -, hr⟩
      · cases hr.symm.trans h
        exact .inl ⟨off, _, rfl, .inl rfl⟩
      · cases hr.symm.trans h
        exact .inl ⟨off, _, rfl, .inr rfl⟩
    | write off v =>
      rcases busWrite_cases off v (s.setScript rest) with ⟨r, u, hcheck, hu, hw⟩ | ⟨_, -, hw⟩
      · cases hw.symm.trans h
        exact .inr (.inl ⟨off, v, r, u, rfl, hcheck, hu, rfl⟩)
      · cases hw.symm.trans h
        exact .inr (.inr (.inl ⟨off, v, rfl, rfl⟩))
    | reset =>
      cases h
      exact .inr (.inr (.inr ⟨rfl, rfl⟩))

end Sys2Proof.StepCases
end

section
/-! PROOFS. The invariants (R39; R28): a predicate on states that every update a step makes keeps is kept by every step,
and by every run. -/

namespace Sys2Proof.Invariants

open Sys2Proof.Machine Sys2Proof.Laws Sys2Proof.Safety Sys2Proof.Reference Sys2Proof.StepCases

variable {s t u : State} {w : Word} {r : Reg} {P : State → Prop}

/-- `P` speaks of no field that the host's side of the port changes, and holds after reset. -/
structure HostStable (P : State → Prop) : Prop where
  script : ∀ (s : State) l, P s → P (s.setScript l)
  reply : ∀ (s : State) res d, P s → P (s.reply res d)
  draw : ∀ s : State, P s → P s.countDraw
  reset : ∀ s : State, P s.applyReset

/-- The induction step of every invariant: what the accepted writes keep, every step keeps. -/
theorem step_keeps (hhost : HostStable P)
    (hwrite : ∀ (r : Reg) (v : Word) (s u : State), P s → writeReg r v s = .next u → P u)
    (hs : P s) (h : step s = .next t) : P t := by
  rcases step_cases h with ⟨-, rfl⟩ |
    ⟨e, rest, -, ⟨-, d, -, rfl | rfl⟩ | ⟨-, v, r, u, -, -, hu, rfl⟩ | ⟨-, -, -, rfl⟩ | ⟨-, rfl⟩⟩
  · exact hs
  · exact hhost.reply _ _ _ (hhost.script s rest hs)
  · exact hhost.reply _ _ _ (hhost.draw _ (hhost.script s rest hs))
  · exact hhost.reply _ _ _ (hwrite r v _ u (hhost.script s rest hs) hu)
  · exact hhost.reply _ _ _ (hhost.script s rest hs)
  · exact hhost.reset _

theorem run_succ {k : Nat} (h : step s = .next u) :
    Host.Core.run Sys2Proof.core (k + 1) s = Host.Core.run Sys2Proof.core k u := by
  have hcore : Sys2Proof.core.step s = .next u := h
  simp only [Host.Core.run, hcore]

/-- What every step keeps, every run keeps. -/
theorem run_keeps (hstep : ∀ s t, P s → step s = .next t → P t) {k : Nat} (hs : P s)
    (h : Host.Core.run Sys2Proof.core k s = .next t) : P t := by
  induction k generalizing s with
  | zero => cases h; exact hs
  | succ k ih =>
    obtain ⟨u, hu⟩ := step_next s
    rw [run_succ hu] at h
    exact ih (hstep s u hs hu) h

/-! ## `StateInv` (R39) -/

/-- The cells of a generator are elements, so storing it keeps the cells of `PG` elements, in canonical form. -/
theorem stateInv_setPg {G : PolyFile} (hG : ValidPoly G) (hs : StateInv s) : StateInv (s.setPg G) where
  pgValid c hc := by
    rcases mem_memWritePrefix hc with hc | ⟨-, hc⟩
    · exact hG.valid _ hc
    · exact hs.pgValid c hc
  eccLenMax := hs.eccLenMax
  haltCause := hs.haltCause
  msgWf := hs.msgWf
  eccWf := hs.eccWf
  pgWf := wf_memWritePrefix hG.length.le hs.pgWf

theorem stateInv_setEcc {bytes : List Byte} (hlen : bytes.length ≤ 255) (hs : StateInv s) :
    StateInv (s.setEcc bytes) :=
  { hs with eccWf := wf_memWritePrefix hlen hs.eccWf }

theorem stateInv_setMsg (k : Fin 255) (v : Byte) (hs : StateInv s) : StateInv (s.setMsg k v) :=
  { hs with msgWf := wf_memWrite k.isLt hs.msgWf }

/-- A command that completes does not touch `HALT`, and ran with `HALT` = 0. -/
theorem stateInv_complete (hhalt : s.halt = false) (hs : StateInv s) : StateInv s.complete :=
  { hs with haltCause := fun h => absurd (hhalt.symm.trans h) (by decide) }

/-- Taking a fault sets `HALT` only together with the code of InvariantViolation. -/
theorem stateInv_takeFault (f : CommandFault) (hhalt : s.halt = false) (hs : StateInv s) :
    StateInv (s.takeFault f) :=
  { hs with haltCause := fun h => by simpa [hhalt] using h }

theorem stateInv_commandBody {i : Instr} (hs : StateInv s) (h : commandBody i s = .ok u) : StateInv u := by
  rcases commandBody_ok_cases h with ⟨-, c, rfl⟩ | ⟨-, G, hG, rfl⟩ | ⟨-, hn, G, bytes, hG, hlen, rfl⟩
  · exact { hs with }
  · exact stateInv_setPg hG hs
  · exact { stateInv_setEcc (hlen.trans_le (by omega)) (stateInv_setPg hG hs) with eccLenMax := hn }

theorem commandBody_keeps_halt {i : Instr} (h : commandBody i s = .ok u) : u.halt = s.halt := by
  rcases commandBody_ok_cases h with ⟨-, c, rfl⟩ | ⟨-, G, -, rfl⟩ | ⟨-, -, G, bytes, -, -, rfl⟩
  · exact setRes_halt s c
  · exact setPg_halt s G
  · simp

theorem stateInv_executeWord (hs : StateInv s) (h : executeWord w s = .next t) : StateInv t := by
  rcases executeWord_cases h with ⟨-, rfl⟩ | ⟨hhalt, i, u, -, hu, rfl⟩ | ⟨hhalt, -, f, -, -, rfl⟩ | ⟨hhalt, rfl⟩
  · exact hs
  · exact stateInv_complete ((commandBody_keeps_halt hu).trans hhalt) (stateInv_commandBody hs hu)
  · exact stateInv_takeFault f hhalt hs
  · exact stateInv_takeFault _ hhalt hs

theorem stateInv_writeReg (hs : StateInv s) (h : writeReg r w s = .next t) : StateInv t := by
  rcases writeReg_cases h with ⟨-, hexec⟩ | ⟨k, -, rfl⟩ | ht
  · exact stateInv_executeWord hs hexec
  · exact stateInv_setMsg k _ hs
  · rw [ht]
    exact { hs with }

theorem stateInv_hostStable : HostStable StateInv where
  script _ _ h := { h with }
  reply _ _ _ h := { h with }
  draw _ h := { h with }
  reset _ := ⟨nofun, by simp, nofun, wf_nil, wf_nil, wf_nil⟩

/-- Settles O12: the arrays are written by valid generators, codewords and message bytes inside their bounds, and
`HALT` by `takeFault` alone. -/
theorem everyStepKeepsTheInvariants : Obligations.EveryStepKeepsTheInvariants :=
  fun _ _ => step_keeps stateInv_hostStable fun _ _ _ _ => stateInv_writeReg

/-! ## `EccCounted` (R28) -/

/-- ENCODE counts in `ECCLEN` the codewords it writes; no other command writes either. -/
theorem eccCounted_commandBody {i : Instr} (hs : EccCounted s) (h : commandBody i s = .ok u) : EccCounted u := by
  rcases commandBody_ok_cases h with ⟨-, c, rfl⟩ | ⟨-, G, -, rfl⟩ | ⟨-, -, G, bytes, -, hlen, rfl⟩
  · exact hs
  · exact hs
  · intro k hk
    have hk : k < bytes.length := hlen ▸ hk
    have hcell := memLookup_memWritePrefix_below bytes s.ecc hk
    exact Option.isSome_of_eq_some hcell

theorem eccCounted_writeReg (hs : EccCounted s) (h : writeReg r w s = .next t) : EccCounted t := by
  rcases writeReg_cases h with ⟨-, hexec⟩ | ⟨k, -, rfl⟩ | ht
  · rcases executeWord_cases hexec with ⟨-, rfl⟩ | ⟨-, i, u, -, hu, rfl⟩ | ⟨-, -, f, -, -, rfl⟩ | ⟨-, rfl⟩
    · exact hs
    · have hcounted : EccCounted u := eccCounted_commandBody hs hu
      exact hcounted
    · exact hs
    · exact hs
  · exact hs
  · rw [ht]
    exact hs

theorem eccCounted_hostStable : HostStable EccCounted where
  script _ _ h := h
  reply _ _ _ h := h
  draw _ h := h
  reset _ := nofun

/-- Settles O13: `ECCLEN` is written by ENCODE alone, with the number of codewords it stores, and no entry of `ECC`
becomes unwritten but by the reset input, which clears `ECCLEN`. -/
theorem everyStepKeepsCountedCodewordsWritten : Obligations.EveryStepKeepsCountedCodewordsWritten :=
  fun _ _ => step_keeps eccCounted_hostStable fun _ _ _ _ => eccCounted_writeReg

/-! ## From reset -/

/-- Settles O11: nothing is listed in the arrays and every register is 0. -/
theorem resetStateMeetsTheInvariants : Obligations.ResetStateMeetsTheInvariants :=
  ⟨⟨nofun, by decide, nofun, wf_nil, wf_nil, wf_nil⟩, nofun⟩

theorem mem_of_memLookup {n k : Nat} {m : Memory n} {c : BitVec n} (h : memLookup m k = some c) : (k, c) ∈ m := by
  induction m with
  | nil => cases h
  | cons d m ih =>
    obtain ⟨j, x⟩ := d
    simp only [memLookup] at h
    split at h
    · next hk =>
      cases h
      subst hk
      exact List.mem_cons_self
    · exact List.mem_cons_of_mem _ (ih h)

/-- Bits 31:3 of `STATUS` read as 0 (R30). -/
theorem statusWord_reserved (s : State) : (statusWord s).extractLsb' 3 29 = 0 := by
  rw [statusWord]
  rcases s.cause with _ | _ | _ | _ <;> cases s.halt <;> rfl

/-- Settles O14: the reset state meets `StateInv`, whatever the script, and every run keeps it. -/
theorem reachableStatesMeetTheInvariants : Obligations.ReachableStatesMeetTheInvariants := by
  intro script k t h
  have hreset := stateInv_hostStable.script _ script resetStateMeetsTheInvariants.1
  have ht : StateInv t := run_keeps everyStepKeepsTheInvariants hreset h
  exact ⟨fun j c hc => ht.pgValid _ (mem_of_memLookup hc), statusWord_reserved t, ht.eccLenMax, ht.haltCause⟩

end Sys2Proof.Invariants
end

section
/-! PROOFS. The address map (R61): which register an offset names, which accesses are refused (R63 to R66), and reading
back what was written (R73). -/

namespace Sys2Proof.AddressMap

open Sys2Proof.Machine Sys2Proof.Laws Sys2Proof.Reference Sys2Proof.BusAccess

variable {s u : State} {off : Offset} {r : Reg} {v : Word} {a : Nat} {rest : List HostEvent}

/-! ## Offsets and registers -/

theorem scalarAt_offset (h : scalarAt a = some r) : (regOffset r).toNat = a := by
  obtain ⟨l₁, l₂, hrows, -⟩ := List.lookup_eq_some_iff.1 h
  have hrow : (a, r) ∈ l₁ ++ (a, r) :: l₂ := by simp
  rw [← hrows] at hrow
  simp only [List.mem_cons, Prod.mk.injEq, List.not_mem_nil, or_false] at hrow
  rcases hrow with ⟨rfl, rfl⟩ | ⟨rfl, rfl⟩ | ⟨rfl, rfl⟩ | ⟨rfl, rfl⟩ | ⟨rfl, rfl⟩ | ⟨rfl, rfl⟩ | ⟨rfl, rfl⟩ |
    ⟨rfl, rfl⟩ <;> rfl

/-- At a multiple of 4, the index found is that of the entry that stands there. -/
theorem arrayIndex_offset {first : Nat} {i : Fin 255} (hfirst : first % 4 = 0) (ha : a % 4 = 0)
    (h : arrayIndex first a = some i) : first + 4 * i = a := by
  unfold arrayIndex at h
  split at h
  · next hin =>
    cases h
    show first + 4 * ((a - first) / 4) = a
    omega
  · cases h

theorem regAt_offset (ha : a % 4 = 0) (h : regAt a = some r) : (regOffset r).toNat = a := by
  unfold regAt at h
  split at h
  · exact scalarAt_offset h
  · split at h
    · obtain ⟨i, hi, rfl⟩ := Option.map_eq_some_iff.1 h
      exact (entry_toNat _ (by decide) i).trans (arrayIndex_offset (by decide) ha hi)
    · split at h
      · obtain ⟨i, hi, rfl⟩ := Option.map_eq_some_iff.1 h
        exact (entry_toNat _ (by decide) i).trans (arrayIndex_offset (by decide) ha hi)
      · obtain ⟨i, hi, rfl⟩ := Option.map_eq_some_iff.1 h
        exact (entry_toNat _ (by decide) i).trans (arrayIndex_offset (by decide) ha hi)

/-- Settles O3: the register found at an aligned offset stands there, and at the offset of a register it is found. -/
theorem offsetsAndRegistersAgree : Obligations.OffsetsAndRegistersAgree := by
  refine fun off r => ⟨fun h => ?_, fun h => h ▸ decodeOffset_regOffset r⟩
  unfold decodeOffset at h
  split at h
  · cases h
  · next haligned =>
    split at h
    · next hreg =>
      cases h
      exact (BitVec.eq_of_toNat_eq (regAt_offset (not_not.1 haligned) hreg)).symm
    · cases h

/-- Every multiple of 4 outside the gaps of the map is the offset of a register (R61, R65). -/
theorem exists_reg_of_mapped (hcap : a < 4096) (ha : a % 4 = 0) (h : ¬ unmappedOffset a) :
    ∃ r, (regOffset r).toNat = a := by
  have entry (first : Nat) (hfirst : first ≤ 0xC00) (h4 : first % 4 = 0) (hlo : first ≤ a)
      (hhi : a < first + 4 * 255) :
      ∃ i : Fin 255, (BitVec.ofNat 12 (first + 4 * i)).toNat = a := by
    have hi : (a - first) / 4 < 255 := by omega
    exact ⟨⟨(a - first) / 4, hi⟩, by rw [entry_toNat _ hfirst]; show first + 4 * ((a - first) / 4) = a; omega⟩
  rcases Nat.lt_or_ge a 0x20 with hlow | hlow
  · obtain ⟨k, rfl⟩ : ∃ k, a = 4 * k := ⟨a / 4, by omega⟩
    have hk : k < 8 := by omega
    have hscalar : ∀ j < 8, ∃ r ∈ [Reg.cmd, .status, .opa, .opb, .res, .ncw, .mlen, .ecclen],
        (regOffset r).toNat = 4 * j := by decide
    obtain ⟨r, -, hr⟩ := hscalar k hk
    exact ⟨r, hr⟩
  · rcases Nat.lt_or_ge a 0x800 with hmsg | hmsg
    · obtain ⟨i, hi⟩ := entry 0x400 (by decide) rfl (by omega) (by omega)
      exact ⟨.msg i, hi⟩
    · rcases Nat.lt_or_ge a 0xC00 with hecc | hecc
      · obtain ⟨i, hi⟩ := entry 0x800 (by decide) rfl (by omega) (by omega)
        exact ⟨.ecc i, hi⟩
      · obtain ⟨i, hi⟩ := entry 0xC00 (by decide) rfl (by omega) (by omega)
        exact ⟨.pg i, hi⟩

/-! ## The checks of an access -/

theorem checkRead_eq_ok_iff : checkRead off = .ok r ↔ off = regOffset r ∧ regRights r ≠ .wo := by
  constructor
  · intro h
    unfold checkRead at h
    split at h
    · cases h
    · next q hq =>
      split at h
      · cases h
      · next hr =>
        cases h
        exact ⟨(offsetsAndRegistersAgree off r).1 hq, hr⟩
  · rintro ⟨rfl, hr⟩
    exact checkRead_regOffset hr

theorem checkWrite_eq_ok_iff : checkWrite off v = .ok r ↔
    off = regOffset r ∧ regRights r ≠ .ro ∧ v.toNat < 2 ^ regWriteWidth r := by
  constructor
  · intro h
    unfold checkWrite at h
    split at h
    · cases h
    · next q hq =>
      split at h
      · cases h
      · next hr =>
        split at h
        · cases h
        · next hv =>
          cases h
          exact ⟨(offsetsAndRegistersAgree off r).1 hq, hr, Nat.lt_of_not_le hv⟩
  · rintro ⟨rfl, hr, hv⟩
    exact checkWrite_regOffset hr hv

/-- Of the registers, only the read of `CMD` is refused (R64). -/
theorem readRefused_regOffset : readRefused (regOffset r).toNat ↔ regRights r = .wo := by
  cases r with
  | cmd | status | opa | opb | res | ncw | mlen | ecclen => decide
  | msg i | ecc i | pg i =>
    simp only [regOffset, regRights, reduceCtorEq, iff_false]
    rw [entry_toNat _ (by decide)]
    omega

/-- Of the registers, the writes of read-only ones and of data too wide are refused (R64, R66). -/
theorem writeRefused_regOffset : writeRefused (regOffset r).toNat v.toNat ↔
    regRights r = .ro ∨ 2 ^ regWriteWidth r ≤ v.toNat := by
  have hv : v.toNat < 4294967296 := v.isLt
  cases r with
  | cmd | status | opa | opb | res | ncw | mlen | ecclen =>
    simp [writeRefused, unmappedOffset, readOnlyOffset, regOffset, regRights, regWriteWidth, hv]
  | msg i =>
    simp only [writeRefused, regOffset, regRights, regWriteWidth, reduceCtorEq, false_or]
    rw [entry_toNat _ (by decide)]
    omega
  | ecc i | pg i =>
    simp only [writeRefused, regOffset, regRights, true_or, iff_true]
    rw [entry_toNat _ (by decide)]
    omega

theorem readRefused_iff : readRefused off.toNat ↔ ∀ r, checkRead off ≠ .ok r := by
  constructor
  · intro h r hr
    obtain ⟨rfl, hrights⟩ := checkRead_eq_ok_iff.1 hr
    exact hrights (readRefused_regOffset.1 h)
  · intro h
    by_contra hread
    obtain ⟨r, hr⟩ := exists_reg_of_mapped off.isLt (a := off.toNat) (by tauto) (by tauto)
    cases BitVec.eq_of_toNat_eq hr
    exact h r (checkRead_regOffset (mt readRefused_regOffset.2 hread))

theorem writeRefused_iff : writeRefused off.toNat v.toNat ↔ ∀ r, checkWrite off v ≠ .ok r := by
  constructor
  · intro h r hr
    obtain ⟨rfl, hrights, hv⟩ := checkWrite_eq_ok_iff.1 hr
    rcases writeRefused_regOffset.1 h with hro | hwide
    · exact hrights hro
    · omega
  · intro h
    by_contra hwrite
    obtain ⟨r, hr⟩ := exists_reg_of_mapped off.isLt (a := off.toNat) (by tauto) (by tauto)
    cases BitVec.eq_of_toNat_eq hr
    obtain ⟨hrights, hv⟩ := not_or.1 (mt writeRefused_regOffset.2 hwrite)
    exact h r (checkWrite_regOffset hrights (Nat.lt_of_not_le hv))

/-! ## The statements -/

theorem writeReg_keeps_host (h : writeReg r v s = .next u) : u.script = s.script ∧ u.replies = s.replies := by
  rcases StepCases.writeReg_cases h with ⟨-, hexec⟩ | ⟨k, -, rfl⟩ | hu
  · exact executeWord_keeps_host hexec
  · exact ⟨rfl, rfl⟩
  · rw [hu]
    exact ⟨rfl, rfl⟩

/-- Settles O48: the access is refused when no register passes its check, and is answered `OKAY` when one does. -/
theorem refusedAccessChangesNothing : Obligations.RefusedAccessChangesNothing := by
  refine ⟨fun s rest off => ?_, fun s rest off v => ?_⟩
  · have hperform : step (s.setScript (.read off :: rest)) = busRead off (s.setScript rest) :=
      step_cons (setScript_script _ _)
    rw [hperform, readRefused_iff]
    rcases busRead_cases off (s.setScript rest) with ⟨r, hr, hread⟩ | ⟨e, he, hread⟩
    · exact ⟨fun h => absurd hr (h r), fun _ => ⟨_, hread⟩⟩
    · exact ⟨fun _ => ⟨_, hread⟩, fun h => absurd (fun r hr => by cases he.symm.trans hr) h⟩
  · have hperform : step (s.setScript (.write off v :: rest)) = busWrite off v (s.setScript rest) :=
      step_cons (setScript_script _ _)
    rw [hperform, writeRefused_iff]
    rcases busWrite_cases off v (s.setScript rest) with ⟨r, u, hr, hu, hwrite⟩ | ⟨e, he, hwrite⟩
    · refine ⟨fun h => absurd hr (h r), fun _ => ⟨_, hwrite, ?_⟩⟩
      rw [reply_replies, (writeReg_keeps_host hu).2]
      rfl
    · exact ⟨fun _ => hwrite, fun h => absurd (fun r hr => by cases he.symm.trans hr) h⟩

/-- Data that fits a narrow register loses nothing by being cut to its width. -/
theorem setWidth_setWidth_of_lt {n : Nat} (hn : n ≤ 32) (h : v.toNat < 2 ^ n) : (v.setWidth n).setWidth 32 = v := by
  refine BitVec.eq_of_toNat_eq ?_
  rw [BitVec.toNat_setWidth_of_le hn, BitVec.toNat_setWidth, Nat.mod_eq_of_lt h]

/-- R68, R67: an accepted write leaves in a readable and writable register the data written. -/
theorem exists_writeReg_readReg (hr : regRights r = .rw) (hv : v.toNat < 2 ^ regWriteWidth r) :
    ∃ u, writeReg r v s = .next u ∧ readReg u r = v := by
  cases r with
  | cmd | status | res | ecclen | ecc i | pg i => cases hr
  | opa | opb => exact ⟨_, rfl, setWidth_setWidth_of_lt (by decide) hv⟩
  | ncw | mlen => exact ⟨_, rfl, rfl⟩
  | msg i =>
    refine ⟨_, rfl, ?_⟩
    rw [readReg, readMsg_setMsg_same]
    exact setWidth_setWidth_of_lt (by decide) hv

/-- An accepted write, at any offset. -/
theorem step_write_next (hr : regRights r ≠ .ro) (hv : v.toNat < 2 ^ regWriteWidth r)
    (hu : writeReg r v (s.setScript rest) = .next u) :
    step (s.setScript (.write (regOffset r) v :: rest)) = .next (u.reply .okay none) := by
  have hstep : step (s.setScript (.write (regOffset r) v :: rest)) = busWrite (regOffset r) v (s.setScript rest) :=
    step_cons (setScript_script _ _)
  rw [hstep, busWrite, checkWrite_regOffset hr hv]
  simp only [hu]

/-- Settles O51: the first step stores the data and leaves the read as the next access, which gives it back. -/
theorem writtenDataIsReadBack : Obligations.WrittenDataIsReadBack := by
  intro s rest r v hr hv
  obtain ⟨u, hu, hdata⟩ := exists_writeReg_readReg (s := s.setScript (.read (regOffset r) :: rest)) hr hv
  obtain ⟨hscript, hreplies⟩ := writeReg_keeps_host hu
  have hwrite := step_write_next (by simp [hr]) hv hu
  have hself : u.reply .okay none = (u.reply .okay none).setScript (.read (regOffset r) :: rest) := by
    rw [← setScript_script s (.read (regOffset r) :: rest), ← hscript]
    rfl
  have hread := step_read (r := r) (u.reply .okay none) rest (by simp [hr])
  rw [← hself] at hread
  refine ⟨_, (Invariants.run_succ hwrite).trans (Invariants.run_succ hread), ?_, rfl⟩
  have hkeep : readReg (u.reply .okay none) r = v := by
    rw [← hdata]
    cases r <;> rfl
  simp only [hkeep, reply_replies, hreplies, setScript_replies]

end Sys2Proof.AddressMap
end

section
/-! PROOFS. Steps and runs: the idle core (R214), a write to `CMD` (R91, R207, R209), what changes `STATUS` (R102,
R209), the reset input (R230, R233), and that a run answers every access (R237). -/

namespace Sys2Proof.StepOutcomes

open Sys2Proof.Machine Sys2Proof.Laws Sys2Proof.Reference Sys2Proof.StepCases

variable {s t u : State} {w v : Word} {r : Reg} {off : Offset} {e : HostEvent} {rest : List HostEvent}

/-- Settles O7: with an empty script there is nothing to perform. -/
theorem idleCoreKeepsItsState : Obligations.IdleCoreKeepsItsState := fun _ => step_idle

/-! ## A write to `CMD` -/

/-- A write to `CMD` executes its word and is answered `OKAY` (R91, R68). -/
theorem step_writeCmd (h : executeWord w (s.setScript rest) = .next t) :
    step (s.setScript (.write 0x000 w :: rest)) = .next (t.reply .okay none) :=
  AddressMap.step_write_next (r := .cmd) (by decide) w.isLt h

theorem executeWord_of_decode {i : Instr} (h : decode w = .ok i) (s : State) : executeWord w s = exec i s := by
  simp only [executeWord, h]

/-- Settles O6: the word decodes, so its execution is the command. -/
theorem stepRunsTheDecodedCommand : Obligations.StepRunsTheDecodedCommand := by
  intro s rest w i hdecode
  obtain ⟨t, ht⟩ := exec_next i (s.setScript rest)
  exact ⟨t, ht, step_writeCmd ((executeWord_of_decode hdecode _).trans ht)⟩

theorem executeWord_halted (w : Word) (hs : s.halt = true) : executeWord w s = .next s := by
  unfold executeWord
  split
  · exact exec_halted _ hs
  · exact runCommand_halted hs

/-- Settles O45: a halted core executes no word, so the write adds its answer and nothing else. -/
theorem haltedCoreIgnoresCommands : Obligations.HaltedCoreIgnoresCommands :=
  fun s rest w hs => step_writeCmd (executeWord_halted (s := s.setScript rest) w hs)

/-! ## `CAUSE` (R209) -/

/-- The checks and writes of a command neither read nor write `CAUSE`. -/
theorem commandBody_setCause (i : Instr) (s : State) (c : Option CommandFault) :
    commandBody i { s with cause := c } = (commandBody i s).map fun u => { u with cause := c } := by
  cases i with
  | toval =>
    rw [commandBody_toval, commandBody_toval]
    cases toValue s.opa <;> rfl
  | toexp =>
    rw [commandBody_toexp, commandBody_toexp]
    cases toExponent s.opa <;> rfl
  | gfmul =>
    rw [commandBody_gfmul, commandBody_gfmul]
    cases addExponents s.opa s.opb <;> rfl
  | gfadd =>
    rw [commandBody_gfadd, commandBody_gfadd]
    cases combine s.opa s.opb <;> rfl
  | genpoly =>
    simp only [commandBody]
    rcases genpolyBody_cases s with ⟨hbad, hs⟩ | ⟨hn, G, hG, -, hs⟩
    · rw [hs, Noninterference.genpolyBody_bad (s := { s with cause := c }) hbad]
      rfl
    · rw [hs, Noninterference.genpolyBody_legal (s := { s with cause := c }) hn hG]
      rfl
  | encode =>
    simp only [commandBody]
    rcases encodeBody_cases s with ⟨hbad, hs⟩ | ⟨hn, G, M, R, bytes, hG, -, hM, -, hR, -, hb, -, hs⟩
    · rw [hs, Noninterference.encodeBody_bad (s := { s with cause := c }) hbad]
      rfl
    · rw [hs, Noninterference.encodeBody_legal (s := { s with cause := c }) hn hG hM hR hb]
      rfl

/-- An executed word overwrites `CAUSE`: `complete` and `takeFault` both write it. -/
theorem executeWord_setCause (w : Word) (c : Option CommandFault) (hs : s.halt = false) :
    executeWord w { s with cause := c } = executeWord w s := by
  cases hdecode : decode w with
  | error e =>
    simp only [executeWord, hdecode]
    rw [runCommand_error (s := s) hs rfl, runCommand_error (s := { s with cause := c }) hs rfl]
    rfl
  | ok i =>
    rw [executeWord_of_decode hdecode, executeWord_of_decode hdecode]
    have hbody := commandBody_setCause i s c
    cases hb : commandBody i s with
    | error f =>
      rw [hb] at hbody
      exact (exec_error (s := { s with cause := c }) hs hbody).trans (exec_error hs hb).symm
    | ok u =>
      rw [hb] at hbody
      exact (exec_ok (s := { s with cause := c }) hs hbody).trans (exec_ok hs hb).symm

/-- What an accepted write does to `STATUS` unless it is a write to `CMD`: nothing. -/
theorem writeReg_keeps_status (hr : r ≠ .cmd) (h : writeReg r v s = .next u) :
    u.cause = s.cause ∧ u.halt = s.halt := by
  rcases writeReg_cases h with ⟨hcmd, -⟩ | ⟨k, -, rfl⟩ | hu
  · exact absurd hcmd hr
  · exact ⟨rfl, rfl⟩
  · rw [hu]
    exact ⟨rfl, rfl⟩

theorem step_read_keeps_status (hscript : s.script = .read off :: rest) (h : step s = .next t) :
    t.cause = s.cause ∧ t.halt = s.halt := by
  rw [step_cons hscript] at h
  rcases busRead_cases off (s.setScript rest) with ⟨_, -, hread⟩ | ⟨_, -, hread⟩
  · cases hread.symm.trans h
    exact ⟨rfl, rfl⟩
  · cases hread.symm.trans h
    exact ⟨rfl, rfl⟩

theorem step_write_keeps_status (hoff : off ≠ 0x000) (hscript : s.script = .write off v :: rest)
    (h : step s = .next t) : t.cause = s.cause ∧ t.halt = s.halt := by
  rw [step_cons hscript] at h
  rcases busWrite_cases off v (s.setScript rest) with ⟨r, u, hcheck, hu, hwrite⟩ | ⟨_, -, hwrite⟩
  · cases hwrite.symm.trans h
    have hr : r ≠ .cmd := by
      rintro rfl
      exact hoff (AddressMap.checkWrite_eq_ok_iff.1 hcheck).1
    obtain ⟨hcause, hhalt⟩ := writeReg_keeps_status hr hu
    exact ⟨hcause, hhalt⟩
  · cases hwrite.symm.trans h
    exact ⟨rfl, rfl⟩

/-- Settles O46: an executed word overwrites `CAUSE`, and `STATUS` is written by the execution of words alone. -/
theorem causeIsTheOutcomeOfTheLatestCommand : Obligations.CauseIsTheOutcomeOfTheLatestCommand := by
  refine ⟨fun s rest w c hs => ?_, fun s t rest off => step_read_keeps_status (setScript_script _ _),
    fun s t rest off v hoff => step_write_keeps_status hoff (setScript_script _ _)⟩
  obtain ⟨t, ht⟩ := executeWord_next w (s.setScript rest)
  have hc := (executeWord_setCause (s := s.setScript rest) w c hs).trans ht
  rw [step_writeCmd ht]
  exact step_writeCmd (s := { s with cause := c }) hc

/-! ## `HALT` (R102) -/

/-- `HALT` is only ever set, by a scalar command that raises InvariantViolation. -/
theorem executeWord_halt_cases (h : executeWord w s = .next u) :
    u.halt = s.halt ∨
    (u.halt = true ∧ u.cause = some .invariantViolation ∧ ∃ i, decode w = .ok i ∧ i ∈ scalarCommands) := by
  rcases executeWord_cases h with ⟨-, rfl⟩ | ⟨-, i, x, -, hx, rfl⟩ | ⟨-, i, f, hi, hf, rfl⟩ | ⟨-, rfl⟩
  · exact .inl rfl
  · exact .inl ((complete_halt x).trans (Invariants.commandBody_keeps_halt hx))
  · rcases commandBody_error_cases hf with ⟨hscalar, rfl⟩ | ⟨-, rfl⟩
    · exact .inr ⟨by simp, rfl, i, hi, hscalar⟩
    · exact .inl (by simp)
  · exact .inl (by simp)

/-- Of the steps, only a write to `CMD` sets `HALT`, and only the reset input clears it. -/
theorem step_halt_cases (h : step s = .next t) :
    t.halt = s.halt ∨ (∃ rest, s.script = .reset :: rest) ∨
    (t.halt = true ∧ t.cause = some .invariantViolation ∧
      ∃ w i rest, s.script = .write 0x000 w :: rest ∧ decode w = .ok i ∧ i ∈ scalarCommands) := by
  cases hscript : s.script with
  | nil =>
    cases (step_idle hscript).symm.trans h
    exact .inl rfl
  | cons e rest =>
    cases e with
    | read off => exact .inl (step_read_keeps_status hscript h).2
    | reset => exact .inr (.inl ⟨rest, rfl⟩)
    | write off w =>
      by_cases hoff : off = 0x000
      · subst hoff
        obtain ⟨u, hu⟩ := executeWord_next w (s.setScript rest)
        have hself : s.setScript (.write 0x000 w :: rest) = s := congrArg s.setScript hscript.symm
        have hstep := step_writeCmd hu
        rw [hself] at hstep
        cases hstep.symm.trans h
        rcases executeWord_halt_cases hu with hhalt | ⟨hhalt, hcause, i, hi, hscalar⟩
        · exact .inl hhalt
        · exact .inr (.inr ⟨hhalt, hcause, w, i, rest, rfl, hi, hscalar⟩)
      · exact .inl (step_write_keeps_status hoff hscript h).2

/-- The reset input is applied to the core with the access taken from the script (R230). -/
theorem step_reset (hscript : s.script = .reset :: rest) : step s = .next (s.setScript rest).applyReset :=
  step_cons hscript

/-- Settles O47: of the three kinds of step, one keeps `HALT`, one is the reset input, one is the violation. -/
theorem haltIsEnteredByViolationAndLeftByReset : Obligations.HaltIsEnteredByViolationAndLeftByReset := by
  intro s t h
  rcases step_halt_cases h with hsame | ⟨rest, hreset⟩ | ⟨hhalt, hcause, hcommand⟩
  · exact ⟨fun hs ht => by simp [hsame, hs] at ht, fun hs ht => by simp [hsame, hs] at ht⟩
  · refine ⟨fun _ _ => ⟨rest, hreset⟩, fun _ ht => ?_⟩
    cases (step_reset hreset).symm.trans h
    cases ht
  · exact ⟨fun _ ht => by simp [hhalt] at ht, fun _ _ => ⟨hcause, hcommand⟩⟩

/-! ## The reset input -/

/-- Settles O9: the reset input replaces every register and array by its value of R40, whatever it was. -/
theorem resetInputGivesTheResetValues : Obligations.ResetInputGivesTheResetValues :=
  fun s _ => ⟨_, step_reset (setScript_script s _), rfl, rfl, rfl, rfl, rfl, rfl, rfl, rfl,
    FaultEntry.statusWord_toNat _, fun _ => ⟨rfl, rfl, rfl⟩, rfl, rfl⟩

/-- Settles O10: exponent 0 and byte 0 are valid operands of the scalar commands, and 0 is no legal parameter. -/
theorem commandsOnResetOperands : Obligations.CommandsOnResetOperands := by
  intro s
  have hone : toValue 0 = .ok 1 := Conversions.toValue_exponent (by decide)
  have hexp : (0 : Cell).toNat ≤ 254 := by decide
  have hillegal : ¬ genpolyLegal s.applyReset := fun h => absurd h.1 (Nat.not_succ_le_zero 0)
  obtain ⟨htoexp, -, -⟩ := Conversions.toexpGivesTheExponent.2 s.applyReset rfl
  obtain ⟨hgfmul, -, -⟩ := FieldArithmetic.gfmulAddsExponents.2 s.applyReset rfl
  obtain ⟨-, hgfadd, -⟩ := FieldArithmetic.gfaddXorsValues.2 s.applyReset rfl
  exact ⟨Conversions.exec_toval_ok (s := s.applyReset) rfl hone, htoexp rfl, hgfmul hexp hexp, hgfadd hexp hexp rfl,
    GeneratorCommand.exec_genpoly_illegal rfl hillegal, EncodeCommand.exec_encode_illegal rfl (.inl rfl)⟩

/-! ## Runs -/

/-- A step takes the next access from the script and answers it; the reset input has no answer (log entry 4). -/
theorem step_consumes (hscript : s.script = e :: rest) :
    ∃ t replies, step s = .next t ∧ t.script = rest ∧ t.replies = replies ++ s.replies ∧
      replies.length = ([e].filter (· ≠ .reset)).length := by
  rw [step_cons hscript]
  cases e with
  | read off =>
    rcases busRead_cases off (s.setScript rest) with ⟨_, -, h⟩ | ⟨_, -, h⟩
    · exact ⟨_, [_], h, rfl, rfl, rfl⟩
    · exact ⟨_, [_], h, rfl, rfl, rfl⟩
  | write off v =>
    rcases busWrite_cases off v (s.setScript rest) with ⟨r, u, -, hu, h⟩ | ⟨_, -, h⟩
    · obtain ⟨hkeep, hreplies⟩ := AddressMap.writeReg_keeps_host hu
      exact ⟨_, [_], h, hkeep, congrArg _ hreplies, rfl⟩
    · exact ⟨_, [_], h, rfl, rfl, rfl⟩
  | reset => exact ⟨_, [], rfl, rfl, rfl, rfl⟩

/-- Settles O8, by induction on the script: each step takes one access and answers it. -/
theorem everyRunEndsWithEveryAccessAnswered : Obligations.EveryRunEndsWithEveryAccessAnswered := by
  intro s
  generalize hscript : s.script = script
  induction script generalizing s with
  | nil => exact ⟨s, [], rfl, hscript, rfl, rfl⟩
  | cons e rest ih =>
    obtain ⟨u, replies, hstep, hrest, hreplies, hlen⟩ := step_consumes hscript
    obtain ⟨t, replies', hrun, hend, hreplies', hlen'⟩ := ih u hrest
    refine ⟨t, replies' ++ replies, (Invariants.run_succ hstep).trans hrun, hend, ?_, ?_⟩
    · rw [hreplies', hreplies, List.append_assoc]
    · rw [List.length_append, hlen, hlen', ← List.singleton_append (l := rest), List.filter_append,
        List.length_append, Nat.add_comm]

end Sys2Proof.StepOutcomes
end

section
/-! PROOFS. Host scripts: the accesses of the pseudo-instructions (R97), and what those of LDMSG do. -/

namespace Sys2Proof.HostScript

open Sys2Proof.Machine Sys2Proof.Laws Sys2Proof.Reference

variable {s : State} {bytes : List Byte} {rest : List HostEvent}

/-- Settles O2, by running the decoder on the six words. -/
theorem commandWordsDecode : Obligations.CommandWordsDecode := by
  unfold Obligations.CommandWordsDecode
  decide

/-- Settles O4: the six rows hold the encodings of the commands. -/
theorem scriptLinesAreBusWrites : Obligations.ScriptLinesAreBusWrites :=
  ⟨fun w i h => by rw [CommandWord.mem_commandWords_iff.1 h]; rfl, fun _ => rfl⟩

/-! ## LDMSG -/

/-- The array after the bytes are written at `k`, `k + 1`, .... -/
def storeFrom (k : Nat) : List Byte → Memory 8 → Memory 8
  | [], m => m
  | b :: bs, m => storeFrom (k + 1) bs (memWrite k b m)

theorem memLookup_storeFrom (k : Nat) (bytes : List Byte) (m : Memory 8) (j : Nat) :
    memLookup (storeFrom k bytes m) j =
      if h : k ≤ j ∧ j - k < bytes.length then some bytes[j - k] else memLookup m j := by
  induction bytes generalizing k m with
  | nil => simp [storeFrom]
  | cons b bs ih =>
    rw [storeFrom, ih]
    rcases Nat.lt_trichotomy j k with hlt | rfl | hgt
    · rw [dif_neg (by omega), dif_neg (by omega), memLookup_memWrite_other (by omega)]
    · rw [dif_neg (by omega), dif_pos (by simp), memLookup_memWrite_same]
      simp
    · obtain ⟨d, rfl⟩ : ∃ d, j = k + 1 + d := ⟨j - (k + 1), by omega⟩
      have hback : k + 1 + d - k = d + 1 := by omega
      simp only [Nat.add_sub_cancel_left, hback, List.length_cons, Nat.add_lt_add_iff_right, List.getElem_cons_succ,
        Nat.le_add_right, true_and, memLookup_memWrite_other (show k + 1 + d ≠ k by omega)]
      exact dite_congr (by simp; omega) (fun _ => rfl) fun _ => rfl

/-- The run of the writes of bytes to `MSG`, each accepted, and of whatever the host does next. -/
theorem run_loadBytes (k n : Nat) (hk : k + bytes.length ≤ 255) :
    Host.Core.run Sys2Proof.core (bytes.length + n) (s.setScript (loadBytes k bytes ++ rest)) =
      Host.Core.run Sys2Proof.core n
        { s with msg := storeFrom k bytes s.msg, script := rest,
                 replies := List.replicate bytes.length ⟨.okay, none⟩ ++ s.replies } := by
  induction bytes generalizing k s with
  | nil => rw [List.length_nil, Nat.zero_add]; rfl
  | cons b bs ih =>
    rw [List.length_cons] at hk
    have hb : (b.setWidth 32).toNat = b.toNat := BitVec.toNat_setWidth_of_le (by decide)
    have hbyte : (b.setWidth 32).setWidth 8 = b := by
      refine BitVec.eq_of_toNat_eq ?_
      rw [BitVec.toNat_setWidth, hb, Nat.mod_eq_of_lt b.isLt]
    have hin : k < 255 := by omega
    have hwrite : writeReg (.msg ⟨k, hin⟩) (b.setWidth 32) (s.setScript (loadBytes (k + 1) bs ++ rest)) =
        .next ((s.setScript (loadBytes (k + 1) bs ++ rest)).setMsg k b) := by
      rw [writeReg, hbyte]
    have hstep := AddressMap.step_write_next (by simp [regRights]) (by rw [hb]; exact b.isLt) hwrite
    rw [loadBytes, dif_pos hin, List.cons_append, List.length_cons, Nat.add_right_comm, writeTo, Invariants.run_succ hstep]
    have hnext := ih (s := (s.setMsg k b).reply .okay none) (k + 1) (by omega)
    refine Eq.trans hnext ?_
    rw [storeFrom, List.replicate_succ', List.append_assoc]
    rfl

/-- Settles O5: the writes to `MSG` are accepted one by one, and the last access writes their number to `MLEN`. -/
theorem ldmsgLoadsTheMessage : Obligations.LdmsgLoadsTheMessage := by
  intro s bytes hwf
  have hcap : bytes.length ≤ 255 := of_decide_eq_true (Bool.and_eq_true_iff.1 hwf).2
  have hfit : bytes.length < 2 ^ 32 := by omega
  have hload := run_loadBytes (s := s) (bytes := bytes) (rest := [writeTo .mlen (BitVec.ofNat 32 bytes.length)]) 0 1
    (by omega)
  have hmlen := AddressMap.step_write_next (r := .mlen) (v := BitVec.ofNat 32 bytes.length) (rest := [])
    (s := { s with msg := storeFrom 0 bytes s.msg,
                   replies := List.replicate bytes.length ⟨.okay, none⟩ ++ s.replies })
    (by decide) (BitVec.isLt _) rfl
  have hread (k : Nat) : (memLookup (storeFrom 0 bytes s.msg) k).getD (Config.msgAfterReset s.epoch k) =
      if h : k < bytes.length then bytes[k] else readMsg s k := by
    rw [memLookup_storeFrom]
    by_cases hk : k < bytes.length
    · simp [hk]
    · simp [hk, readMsg]
  refine ⟨_, hload.trans (Invariants.run_succ hmlen), ?_, ?_, fun k hk => ?_, ?_⟩
  · show (BitVec.ofNat 32 bytes.length).toNat = bytes.length
    rw [BitVec.toNat_ofNat, Nat.mod_eq_of_lt hfit]
  · refine List.ext_getElem (messageBytes_length _ _) fun k _ hk => ?_
    simp only [messageBytes, List.getElem_map, List.getElem_range]
    exact (hread k).trans (dif_pos hk)
  · exact (hread k).trans (dif_neg (by omega))
  · rw [List.replicate_succ]
    rfl

end Sys2Proof.HostScript
end

section
/-! PROOFS. The frames of the commands (R79, R80, R150, R170), the completion of ENCODE (R170, R184, R188), and what its
codewords do not depend on (R187, R194). -/

namespace Sys2Proof.CommandFrames

open Sys2Proof.Machine Sys2Proof.Laws Sys2Proof.Safety Sys2Proof.Reference Sys2Proof.StepCases

variable {s t u : State} {i : Instr} {f : CommandFault}

/-! ## Frames -/

theorem readPg_setPg_above {l : List Cell} {k : Nat} (h : l.length ≤ k) (s : State) :
    readPg (s.setPg l) k = readPg s k := by
  simp [readPg, memLookup_memWritePrefix_above l s.pg h]

/-- A command of the arithmetic engine raises InvariantViolation, ends with `RES` written, or is not executed. -/
theorem exec_scalar_cases (hi : i ∈ scalarCommands) (h : exec i s = .next t) :
    t = s ∨ (∃ c, t = (s.setRes c).complete) ∨ ∃ f, t = s.takeFault f := by
  rcases exec_cases h with ⟨-, ht⟩ | ⟨-, u, hu, rfl⟩ | ⟨-, f, -, ht⟩
  · exact .inl ht
  · rcases commandBody_ok_cases hu with ⟨-, c, rfl⟩ | ⟨rfl, -⟩ | ⟨rfl, -⟩
    · exact .inr (.inl ⟨c, rfl⟩)
    · simp [scalarCommands] at hi
    · simp [scalarCommands] at hi
  · exact .inr (.inr ⟨f, ht⟩)

/-- Settles O26: `setRes`, `complete` and `takeFault` are all that a scalar command does. -/
theorem scalarCommandsFrame : Obligations.ScalarCommandsFrame := by
  intro i s t hi h
  rcases exec_scalar_cases hi h with rfl | ⟨c, rfl⟩ | ⟨f, rfl⟩
  · exact ⟨rfl, fun _ => ⟨rfl, rfl, rfl⟩⟩
  · exact ⟨rfl, fun _ => ⟨rfl, rfl, rfl⟩⟩
  · exact ⟨rfl, fun _ => ⟨rfl, rfl, rfl⟩⟩

/-- InvalidParameter, the one fault of GENPOLY and ENCODE, sets `CAUSE` alone (R205). -/
theorem takeFault_of_not_scalar (hi : i ∉ scalarCommands) (hf : commandBody i s = .error f) :
    s.takeFault f = { s with cause := some f } := by
  rcases commandBody_error_cases hf with ⟨hscalar, -⟩ | ⟨-, rfl⟩
  · exact absurd hscalar hi
  · exact GeneratorCommand.takeFault_invalidParameter s

/-- Settles O31: GENPOLY stores the 255 cells of its generator, or takes a fault that sets `CAUSE`. -/
theorem genpolyFrame : Obligations.GenpolyFrame := by
  intro s t h
  rcases exec_cases h with ⟨-, rfl⟩ | ⟨-, u, hu, rfl⟩ | ⟨-, f, hf, rfl⟩
  · exact ⟨rfl, fun _ => ⟨rfl, rfl⟩, fun _ _ => rfl⟩
  · rcases commandBody_ok_cases hu with ⟨hi, -⟩ | ⟨-, G, hG, rfl⟩ | ⟨hi, -⟩
    · simp [scalarCommands] at hi
    · exact ⟨rfl, fun _ => ⟨rfl, rfl⟩, fun k hk => readPg_setPg_above (hG.length.trans_le hk) s⟩
    · cases hi
  · rw [takeFault_of_not_scalar (by decide) hf]
    exact ⟨rfl, fun _ => ⟨rfl, rfl⟩, fun _ _ => rfl⟩

/-- Settles O40: ENCODE stores the 255 cells of its generator, `NCW` codewords and their number, or takes a fault that
sets `CAUSE`. -/
theorem encodeFrame : Obligations.EncodeFrame := by
  intro s t h
  rcases exec_cases h with ⟨-, rfl⟩ | ⟨-, u, hu, rfl⟩ | ⟨-, f, hf, rfl⟩
  · exact ⟨rfl, fun _ => rfl, fun _ _ => rfl, fun _ _ => rfl, fun _ => rfl⟩
  · rcases commandBody_ok_cases hu with ⟨hi, -⟩ | ⟨hi, -⟩ | ⟨-, -, G, bytes, hG, hlen, rfl⟩
    · simp [scalarCommands] at hi
    · cases hi
    · exact ⟨rfl, fun _ => rfl, fun k hk => readEcc_setEcc_above (hlen.trans_le hk) (s.setPg G),
        fun k hk => readPg_setPg_above (hG.length.trans_le hk) s, fun hcause => absurd (complete_cause _) hcause⟩
  · rw [takeFault_of_not_scalar (by decide) hf]
    exact ⟨rfl, fun _ => rfl, fun _ _ => rfl, fun _ _ => rfl, fun _ => rfl⟩

/-! ## ENCODE with legal parameters -/

/-- The state ENCODE leaves when it has built `G` and read the codewords `bytes`. -/
def encoded (s : State) (G : PolyFile) (bytes : List Byte) : State :=
  (((s.setPg G).setEcc bytes).setEccLen s.ncw).complete

/-- The values ENCODE computes on its way: the generator, the message polynomial, the remainder and the codewords. -/
structure EncodeRun (s : State) (G M R : PolyFile) (bytes : List Byte) : Prop where
  generator : buildGenerator s.ncw.toNat = .ok G
  generatorValid : ValidPoly G
  message : loadMessage (messageBytes s s.mlen.toNat) = .ok M
  messageValid : ValidPoly M
  remainder : divide (polyShift M s.ncw.toNat) G s.ncw.toNat = .ok R
  remainderValid : ValidPoly R
  codewords : extractCodewords R s.ncw.toNat = .ok bytes
  codewordsLength : bytes.length = s.ncw.toNat

theorem exists_encodeRun (hn : encodeLegal s) : ∃ G M R bytes, EncodeRun s G M R bytes := by
  rcases encodeBody_cases s with ⟨hbad, -⟩ | ⟨-, G, M, R, bytes, hG, hGv, hM, hMv, hR, hRv, hb, hlen, -⟩
  · exact absurd hbad (not_encodeParameterBad.2 hn)
  · exact ⟨G, M, R, bytes, hG, hGv, hM, hMv, hR, hRv, hb, hlen⟩

theorem exec_encode_legal {G M R : PolyFile} {bytes : List Byte} (hs : s.halt = false) (hn : encodeLegal s)
    (h : EncodeRun s G M R bytes) : exec .encode s = .next (encoded s G bytes) :=
  exec_ok hs (Noninterference.encodeBody_legal hn h.generator h.message h.remainder h.codewords)

/-- What ENCODE leaves in `ECC` at the indices it writes. -/
theorem readEcc_encoded {G : PolyFile} {bytes : List Byte} {k : Nat} (hk : k < bytes.length) :
    readEcc (encoded s G bytes) k = bytes[k] :=
  readEcc_setEcc_below hk (s.setPg G)

/-- Settles O32: the generator ENCODE builds is the one GENPOLY builds, and it writes exactly `NCW` codewords. -/
theorem encodeCompletes : Obligations.EncodeCompletes := by
  intro s hs hn
  obtain ⟨G, M, R, bytes, h⟩ := exists_encodeRun hn
  have hgenpoly : exec .genpoly s = .next (s.setPg G).complete :=
    exec_ok hs (Noninterference.genpolyBody_legal (by omega) h.generator)
  refine ⟨_, exec_encode_legal hs hn h, rfl, fun k hk => ?_, fun k hk => ?_, hgenpoly⟩
  · have hcell := memLookup_memWritePrefix_below bytes s.ecc (h.codewordsLength.symm ▸ hk)
    exact Option.isSome_of_eq_some hcell
  · exact readEcc_setEcc_above (h.codewordsLength.trans_le hk) (s.setPg G)

/-- Storing the same generator and codewords again changes nothing. -/
theorem encoded_encoded (s : State) (G : PolyFile) (bytes : List Byte) :
    encoded (encoded s G bytes) G bytes = encoded s G bytes := by
  have hpg := memWritePrefix_memWritePrefix G s.pg
  have hecc := memWritePrefix_memWritePrefix bytes s.ecc
  simp only [encoded, State.setPg, State.setEcc, State.setEccLen, State.complete, hpg, hecc]

/-- Settles O37: the operands are untouched, so the repetition computes the same generator and codewords. -/
theorem repeatedEncodeChangesNothing : Obligations.RepeatedEncodeChangesNothing := by
  intro s hs hn
  obtain ⟨G, M, R, bytes, h⟩ := exists_encodeRun hn
  have hagain : EncodeRun (encoded s G bytes) G M R bytes := { h with }
  refine ⟨encoded s G bytes, exec_encode_legal hs hn h, ?_⟩
  rw [exec_encode_legal (s := encoded s G bytes) hs hn hagain, encoded_encoded]

/-- The message polynomial is filled up with `ZERO`, so a leading zero byte is in it already (R173). -/
theorem loadMessage_zero_cons {bytes : List Byte} (h : bytes.length + 1 ≤ 255) :
    loadMessage (0 :: bytes) = loadMessage bytes := by
  have hlast {cells : List Byte} : mapLanes (fun b : Byte => toExponent (b.setWidth 16)) (cells ++ [0]) =
      (mapLanes (fun b : Byte => toExponent (b.setWidth 16)) cells).map (· ++ [Config.zeroElem]) := by
    induction cells with
    | nil => rfl
    | cons b bs ih =>
      rw [List.cons_append, mapLanes, mapLanes, ih]
      cases toExponent (b.setWidth 16) with
      | error f => rfl
      | ok c => cases mapLanes (fun b : Byte => toExponent (b.setWidth 16)) bs <;> rfl
  have hfill : zeroCells (255 - bytes.length) = Config.zeroElem :: zeroCells (255 - (bytes.length + 1)) := by
    rw [show 255 - bytes.length = 255 - (bytes.length + 1) + 1 by omega]
    rfl
  rw [loadMessage, loadMessage, List.reverse_cons, hlast, List.length_cons, Config.polyCap_eq, hfill]
  cases mapLanes (fun b : Byte => toExponent (b.setWidth 16)) bytes.reverse with
  | error f => rfl
  | ok cells => simp [Except.map]

/-- Settles O36: both messages load as the same polynomial. -/
theorem leadingZeroByteChangesNoCodeword : Obligations.LeadingZeroByteChangesNoCodeword := by
  intro s u hs hu hns hnu hncw hmsg
  obtain ⟨G, M, R, bytes, h⟩ := exists_encodeRun hns
  have hlen : u.mlen.toNat = s.mlen.toNat + 1 := by
    rw [← messageBytes_length u u.mlen.toNat, hmsg, List.length_cons, messageBytes_length]
  have hload : loadMessage (messageBytes u u.mlen.toNat) = .ok M := by
    rw [hmsg, loadMessage_zero_cons (by rw [messageBytes_length]; omega), h.message]
  have hrun : EncodeRun u G M R bytes := by
    refine ⟨?_, h.generatorValid, hload, h.messageValid, ?_, h.remainderValid, ?_, ?_⟩
    · rw [hncw]; exact h.generator
    · rw [hncw]; exact h.remainder
    · rw [hncw]; exact h.codewords
    · rw [hncw]; exact h.codewordsLength
  refine ⟨_, _, exec_encode_legal hs hns h, exec_encode_legal hu hnu hrun, fun k hk => ?_⟩
  have hk : k < bytes.length := h.codewordsLength.symm ▸ hk
  rw [readEcc_encoded hk, readEcc_encoded hk]

end Sys2Proof.CommandFrames
end

section
/-! PROOFS. GF(256) as the quotient of the polynomials over GF(2) by x^8 + x^4 + x^3 + x^2 + 1 (R110), and the two
readings of the model's data in it: a byte as the polynomial of its bits, a cell as a power of alpha or 0. The model's
operations are those of the ring under either reading, and both readings are injective. -/

namespace Sys2Proof.FieldModel

open Sys2Proof.Machine Sys2Proof.Laws Sys2Proof.Reference
open Polynomial

/-- `PRIM_POLY` = 0x11D as a polynomial over GF(2) (R7, R110). -/
noncomputable abbrev primitive : (ZMod 2)[X] := X ^ 8 + X ^ 4 + X ^ 3 + X ^ 2 + 1

/-- The ring the bytes and the elements are read in. -/
abbrev GF := AdjoinRoot primitive

/-- alpha, the class of x (R111). -/
noncomputable abbrev α : GF := AdjoinRoot.root primitive

variable {a b c : Cell} {x y : Byte}

/-! ## The ring -/

theorem two_eq_zero : (2 : GF) = 0 := by
  rw [← map_ofNat (AdjoinRoot.of primitive) 2, show (OfNat.ofNat 2 : ZMod 2) = 0 from rfl, map_zero]

theorem add_self (z : GF) : z + z = 0 := by rw [← two_mul, two_eq_zero, zero_mul]

theorem α_pow_eight : α ^ 8 = α ^ 4 + α ^ 3 + α ^ 2 + 1 := by
  have h : aeval α primitive = 0 := AdjoinRoot.aeval_eq primitive ▸ AdjoinRoot.mk_self
  simp only [primitive, map_add, map_pow, aeval_X, map_one] at h
  linear_combination h - (α ^ 4 + α ^ 3 + α ^ 2 + 1) * two_eq_zero

theorem gf_nontrivial : Nontrivial GF := by
  have hdeg : (primitive).degree = 8 := by
    unfold primitive
    compute_degree!
  exact AdjoinRoot.nontrivial _ (by rw [hdeg]; decide)

/-! ## Bytes -/

/-- A byte as the polynomial of its bits, in alpha (R110). -/
noncomputable def ofByte (v : Byte) : GF := ∑ k ∈ Finset.range 8, ((v.getLsbD k).toNat : GF) * α ^ k

theorem ofByte_zero : ofByte 0 = 0 := by simp [ofByte]

theorem ofByte_one : ofByte 1 = 1 := by simp [ofByte, Finset.sum_range_succ]

theorem ofByte_xor (v w : Byte) : ofByte (v ^^^ w) = ofByte v + ofByte w := by
  rw [ofByte, ofByte, ofByte, ← Finset.sum_add_distrib]
  refine Finset.sum_congr rfl fun k _ => ?_
  rw [BitVec.getLsbD_xor]
  cases v.getLsbD k <;> cases w.getLsbD k <;> simp [add_self]

/-- The doubling step moves every bit up and folds bit 8 back (R111). -/
theorem xtime_eq : ∀ v : Byte, xtime v = (v <<< 1) ^^^ (if v.getLsbD 7 then 0x1D else 0) := by decide +kernel

/-- The doubling step is multiplication by alpha (R111). -/
theorem ofByte_xtime (v : Byte) : ofByte (xtime v) = α * ofByte v := by
  have hfold : ofByte 0x1D = α ^ 8 := by
    rw [α_pow_eight]
    simp [ofByte, Finset.sum_range_succ]
    ring
  have hshift : ofByte (v <<< 1) + ((v.getLsbD 7).toNat : GF) * α ^ 8 = α * ofByte v := by
    simp [ofByte, Finset.sum_range_succ]
    ring
  rw [xtime_eq, ofByte_xor, ← hshift]
  cases v.getLsbD 7 with
  | false => rw [if_neg Bool.false_ne_true, ofByte_zero, Bool.toNat_false, Nat.cast_zero, zero_mul]
  | true => rw [if_pos rfl, hfold, Bool.toNat_true, Nat.cast_one, one_mul]

theorem ofByte_alphaPow (i : Nat) : ofByte (alphaPow i) = α ^ i := by
  induction i with
  | zero => exact ofByte_one.trans (pow_zero α).symm
  | succ i ih => rw [alphaPow, ofByte_xtime, ih, pow_succ']

theorem ofByte_doublings (v : Byte) (k : Nat) : ofByte (doublings v k) = α ^ k * ofByte v := by
  induction k with
  | zero => rw [doublings, pow_zero, one_mul]
  | succ k ih => rw [doublings, ofByte_xtime, ih, pow_succ', mul_assoc]

/-- The product of bytes is that of the ring (R110): the bits of one factor select doublings of the other. -/
theorem ofByte_byteMul (v w : Byte) : ofByte (byteMul v w) = ofByte v * ofByte w := by
  have hpart (n : Nat) : ofByte
      ((List.range n).foldl (fun acc k => if w.getLsbD k then acc ^^^ doublings v k else acc) 0) =
      ∑ k ∈ Finset.range n, ((w.getLsbD k).toNat : GF) * (α ^ k * ofByte v) := by
    induction n with
    | zero => exact ofByte_zero
    | succ n ih =>
      rw [List.range_succ, List.foldl_append, Finset.sum_range_succ, ← ih]
      simp only [List.foldl_cons, List.foldl_nil]
      cases w.getLsbD n with
      | false => rw [if_neg Bool.false_ne_true, Bool.toNat_false, Nat.cast_zero, zero_mul, add_zero]
      | true => rw [if_pos rfl, ofByte_xor, ofByte_doublings, Bool.toNat_true, Nat.cast_one, one_mul]
  rw [byteMul, hpart, ofByte, ofByte, Finset.mul_sum]
  refine Finset.sum_congr rfl fun k _ => ?_
  ring

/-! ## The tables -/

/-- The listed table follows the doubling recurrence (R111, R113). -/
theorem expTable_succ : ∀ i < 255, expTable (i + 1) = xtime (expTable i) := by decide +kernel

theorem expTable_logTable_nat : ∀ n < 256, n ≠ 0 → (expTable (logTable n).toNat).toNat = n := by decide +kernel

/-- `EXP` undoes `LOG` on the nonzero bytes (R112). -/
theorem expTable_logTable {v : Byte} (hv : v ≠ 0) : expTable (logTable v.toNat).toNat = v :=
  BitVec.eq_of_toNat_eq (expTable_logTable_nat v.toNat v.isLt fun h => hv (BitVec.eq_of_toNat_eq h))

theorem logTable_byte_le {v : Byte} (hv : v ≠ 0) : (logTable v.toNat).toNat ≤ 254 :=
  logTable_le v.toNat v.isLt fun h => hv (BitVec.eq_of_toNat_eq h)

theorem alphaPow_eq_expTable {i : Nat} (hi : i ≤ 255) : alphaPow i = expTable i := by
  induction i with
  | zero => rfl
  | succ i ih => rw [alphaPow, ih (by omega), expTable_succ i (by omega)]

theorem ofByte_expTable {i : Nat} (hi : i ≤ 255) : ofByte (expTable i) = α ^ i := by
  rw [← alphaPow_eq_expTable hi, ofByte_alphaPow]

theorem expTable_255 : expTable 255 = 1 := by decide +kernel

theorem α_pow_255 : α ^ 255 = 1 := by rw [← ofByte_expTable le_rfl, expTable_255, ofByte_one]

theorem α_pow_mod (i : Nat) : α ^ (i % 255) = α ^ i := (pow_eq_pow_mod i α_pow_255).symm

/-- No power of alpha is 0: alpha has an inverse. -/
theorem α_pow_ne_zero {i : Nat} (hi : i ≤ 255) : α ^ i ≠ 0 := by
  intro h
  have := gf_nontrivial
  refine one_ne_zero (α := GF) ?_
  rw [← α_pow_255, ← Nat.add_sub_of_le hi, pow_add, h, zero_mul]

/-- A nonzero byte is a power of alpha, so it does not read as 0; and the reading turns xor into the sum. -/
theorem ofByte_injective {v w : Byte} (h : ofByte v = ofByte w) : v = w := by
  by_contra hne
  have hxor : v ^^^ w ≠ 0 := fun hz => hne (BitVec.xor_eq_zero_iff.1 hz)
  have hlog := logTable_byte_le hxor
  refine α_pow_ne_zero (i := (logTable (v ^^^ w).toNat).toNat) (by omega) ?_
  rw [← ofByte_expTable (by omega), expTable_logTable hxor, ofByte_xor, h, add_self]

/-! ## Cells -/

/-- An element as a power of alpha, `ZERO` as 0 (R12). -/
noncomputable def ofCell (c : Cell) : GF := if c = Config.zeroElem then 0 else α ^ c.toNat

@[simp] theorem ofCell_zeroElem : ofCell Config.zeroElem = 0 := if_pos rfl

theorem ofCell_exponent (h : c.toNat ≤ 254) : ofCell c = α ^ c.toNat := if_neg (ne_zeroElem_of_le h)

/-- Exponent 0 is the element 1. -/
theorem ofCell_exponent_zero : ofCell 0 = 1 := (ofCell_exponent (by decide)).trans (pow_zero α)

/-- The exponent `i mod 255` as a cell. -/
theorem ofNat_mod_toNat (i : Nat) : (BitVec.ofNat 16 (i % 255)).toNat = i % 255 := by
  have := Nat.mod_lt i (show 255 > 0 by decide)
  rw [BitVec.toNat_ofNat, Nat.mod_eq_of_lt (by omega)]

theorem ofNat_mod_le (i : Nat) : (BitVec.ofNat 16 (i % 255)).toNat ≤ 254 := by
  have := Nat.mod_lt i (show 255 > 0 by decide)
  rw [ofNat_mod_toNat]
  omega

theorem ofCell_ofNat_mod (i : Nat) : ofCell (BitVec.ofNat 16 (i % 255)) = α ^ i := by
  rw [ofCell_exponent (ofNat_mod_le i), ofNat_mod_toNat, α_pow_mod]

/-- `to_value` keeps what an element stands for (R115). -/
theorem toValue_ofByte (ha : validElem a) : ∃ x, toValue a = .ok x ∧ ofByte x = ofCell a := by
  rcases ha with hle | rfl
  · exact ⟨_, Conversions.toValue_exponent hle, by rw [ofByte_expTable (by omega), ofCell_exponent hle]⟩
  · exact ⟨0, Conversions.toValue_zeroElem, by rw [ofByte_zero, ofCell_zeroElem]⟩

theorem byte_setWidth_toNat (x : Byte) : (x.setWidth 16).toNat = x.toNat := BitVec.toNat_setWidth_of_le (by decide)

/-- `to_exponent` of a byte, and back (R119). -/
theorem toExponent_toValue (x : Byte) : ∃ e, toExponent (x.setWidth 16) = .ok e ∧ validElem e ∧ toValue e = .ok x := by
  by_cases hx : x = 0
  · subst hx
    exact ⟨_, Conversions.toExponent_zero, validElem_zeroElem, Conversions.toValue_zeroElem⟩
  · have hle : ((logTable x.toNat).setWidth 16).toNat ≤ 254 := by
      rw [byte_setWidth_toNat]; exact logTable_byte_le hx
    refine ⟨_, FieldArithmetic.toExponent_byte_nonzero hx, validElem_of_le hle, ?_⟩
    rw [Conversions.toValue_exponent hle, byte_setWidth_toNat, expTable_logTable hx]

theorem expTable_ne_zero : ∀ i < 255, expTable i ≠ 0 := by decide +kernel

/-- `to_value` of an element, and back (R119). -/
theorem toValue_toExponent (ha : validElem a) : ∃ x, toValue a = .ok x ∧ toExponent (x.setWidth 16) = .ok a := by
  rcases ha with hle | rfl
  · refine ⟨_, Conversions.toValue_exponent hle, ?_⟩
    rw [FieldArithmetic.toExponent_byte_nonzero (expTable_ne_zero _ (by omega))]
    refine congrArg _ (BitVec.eq_of_toNat_eq ?_)
    rw [byte_setWidth_toNat, FieldArithmetic.logTable_expTable _ (by omega)]
  · exact ⟨0, Conversions.toValue_zeroElem, Conversions.toExponent_zero⟩

theorem ofCell_of_toExponent (h : toExponent (x.setWidth 16) = .ok a) : validElem a ∧ ofCell a = ofByte x := by
  obtain ⟨e, he, hvalid, hvalue⟩ := toExponent_toValue x
  cases h.symm.trans he
  obtain ⟨y, hy, hof⟩ := toValue_ofByte hvalid
  cases hvalue.symm.trans hy
  exact ⟨hvalid, hof.symm⟩

/-- Elements that read alike are the same. -/
theorem ofCell_injective (ha : validElem a) (hb : validElem b) (h : ofCell a = ofCell b) : a = b := by
  obtain ⟨x, hx, hback⟩ := toValue_toExponent ha
  obtain ⟨y, hy, hback'⟩ := toValue_toExponent hb
  have hxy : x = y := by
    refine ofByte_injective ?_
    rw [← (ofCell_of_toExponent hback).2, h, (ofCell_of_toExponent hback').2]
  subst hxy
  cases hback.symm.trans hback'
  rfl

/-- `add_exponents` is the product (R130). -/
theorem addExponents_ofCell (ha : validElem a) (hb : validElem b) :
    ∃ c, addExponents a b = .ok c ∧ validElem c ∧ ofCell c = ofCell a * ofCell b := by
  by_cases hzero : a = Config.zeroElem ∨ b = Config.zeroElem
  · refine ⟨_, addExponents_zero ha hb hzero, validElem_zeroElem, ?_⟩
    rcases hzero with rfl | rfl <;> simp
  · obtain ⟨hza, hzb⟩ := not_or.1 hzero
    have hla := ha.resolve_right hza
    have hlb := hb.resolve_right hzb
    refine ⟨_, addExponents_exponents hla hlb, validElem_of_le (ofNat_mod_le _), ?_⟩
    rw [ofCell_ofNat_mod, ofCell_exponent hla, ofCell_exponent hlb, pow_add]

/-- `combine` is the sum (R131). -/
theorem combine_ofCell (ha : validElem a) (hb : validElem b) :
    ∃ c, combine a b = .ok c ∧ validElem c ∧ ofCell c = ofCell a + ofCell b := by
  rcases ha with hla | rfl
  · rcases hb with hlb | rfl
    · obtain ⟨e, he, -⟩ := toExponent_byte (expTable a.toNat ^^^ expTable b.toNat)
      obtain ⟨hvalid, hof⟩ := ofCell_of_toExponent he
      refine ⟨e, (combine_exponents hla hlb).trans he, hvalid, ?_⟩
      rw [hof, ofByte_xor, ofByte_expTable (by omega), ofByte_expTable (by omega), ofCell_exponent hla,
        ofCell_exponent hlb]
    · exact ⟨a, combine_zero_right (.inl hla), .inl hla, by simp⟩
  · exact ⟨b, combine_zero_left hb, hb, by simp⟩

/-- The result of `add_exponents`, wherever it is met. -/
theorem ofCell_of_addExponents (ha : validElem a) (hb : validElem b) (h : addExponents a b = .ok c) :
    ofCell c = ofCell a * ofCell b := by
  obtain ⟨d, hd, -, hof⟩ := addExponents_ofCell ha hb
  cases h.symm.trans hd
  exact hof

theorem ofCell_of_combine (ha : validElem a) (hb : validElem b) (h : combine a b = .ok c) :
    ofCell c = ofCell a + ofCell b := by
  obtain ⟨d, hd, -, hof⟩ := combine_ofCell ha hb
  cases h.symm.trans hd
  exact hof

/-! ## The statements -/

/-- Settles O15: the product with alpha and the doubling step read alike, and the rest is the listing. -/
theorem tablesFollowTheDoublingRecurrence : Obligations.TablesFollowTheDoublingRecurrence := by
  refine ⟨fun v => ofByte_injective ?_, rfl, expTable_succ, FieldArithmetic.logTable_expTable⟩
  have halpha : ofByte Config.alpha = α := (ofByte_alphaPow 1).trans (pow_one α)
  rw [ofByte_byteMul, ofByte_xtime, halpha, mul_comm]

/-- Settles O16: `LOG` inverts `EXP` on both sides, and the powers of alpha repeat after 255. -/
theorem alphaHasOrder255 : Obligations.AlphaHasOrder255 := by
  refine ⟨fun i hi j hj h => ?_, fun v => ⟨fun hv => ?_, ?_⟩, ?_, fun i => ofByte_injective ?_,
    fun v hv => ⟨logTable_byte_le hv, expTable_logTable hv⟩, FieldArithmetic.logTable_expTable⟩
  · rw [← FieldArithmetic.logTable_expTable i hi, h, FieldArithmetic.logTable_expTable j hj]
  · have hle := logTable_byte_le hv
    exact ⟨_, by omega, expTable_logTable hv⟩
  · rintro ⟨i, hi, rfl⟩
    exact expTable_ne_zero i hi
  · rw [← expTable_succ 254 (by decide), expTable_255]
  · have := Nat.mod_lt i (show 255 > 0 by decide)
    rw [ofByte_alphaPow, ofByte_expTable (by omega), α_pow_mod]

/-- Settles O17: a value is a byte, and the conversions undo each other on bytes and on elements. -/
theorem conversionsAreInverse : Obligations.ConversionsAreInverse := by
  refine ⟨fun v hv => ?_, fun e he => toValue_toExponent he⟩
  have hbyte : (v.setWidth 8).setWidth 16 = v := by
    refine BitVec.eq_of_toNat_eq ?_
    rw [byte_setWidth_toNat, BitVec.toNat_setWidth, Nat.mod_eq_of_lt (by omega)]
  obtain ⟨e, he, -, hback⟩ := toExponent_toValue (v.setWidth 8)
  rw [hbyte] at he
  exact ⟨e, _, he, hback, hbyte⟩

/-- An element's byte is found by what it reads as. -/
theorem toValue_eq_of_ofCell (ha : validElem a) (h : ofCell a = ofByte x) : toValue a = .ok x := by
  obtain ⟨y, hy, hof⟩ := toValue_ofByte ha
  rw [hy, ofByte_injective (hof.trans h)]

/-- Settles O18: both sides read as the same product, and as the same sum. -/
theorem productAndSumOnBytes : Obligations.ProductAndSumOnBytes := by
  intro a b ha hb
  obtain ⟨x, hx, hofx⟩ := toValue_ofByte ha
  obtain ⟨y, hy, hofy⟩ := toValue_ofByte hb
  obtain ⟨p, hp, hpv, hofp⟩ := addExponents_ofCell ha hb
  obtain ⟨q, hq, hqv, hofq⟩ := combine_ofCell ha hb
  refine ⟨x, y, p, q, hx, hy, hp, toValue_eq_of_ofCell hpv ?_, hq, toValue_eq_of_ofCell hqv ?_⟩
  · rw [hofp, ofByte_byteMul, hofx, hofy]
  · rw [hofq, ofByte_xor, hofx, hofy]

/-- Two field operations in a row, bracketed to the left or to the right, give the same when both read alike. -/
theorem bind_assoc_of_ofCell {op : Cell → Cell → Except CommandFault Cell} {g : GF → GF → GF}
    (hop : ∀ a b, validElem a → validElem b → ∃ c, op a b = .ok c ∧ validElem c ∧ ofCell c = g (ofCell a) (ofCell b))
    (hg : ∀ p q r, g (g p q) r = g p (g q r)) (ha : validElem a) (hb : validElem b) (hc : validElem c) :
    (op a b).bind (op · c) = (op b c).bind (op a ·) := by
  obtain ⟨d, hd, hdv, hofd⟩ := hop a b ha hb
  obtain ⟨e, he, hev, hofe⟩ := hop b c hb hc
  obtain ⟨l, hl, hlv, hofl⟩ := hop d c hdv hc
  obtain ⟨r, hr, hrv, hofr⟩ := hop a e ha hev
  have hlr : l = r := ofCell_injective hlv hrv (by rw [hofl, hofr, hofd, hofe, hg])
  rw [hd, he]
  exact hl.trans (hlr ▸ hr.symm)

theorem comm_of_ofCell {op : Cell → Cell → Except CommandFault Cell} {g : GF → GF → GF}
    (hop : ∀ a b, validElem a → validElem b → ∃ c, op a b = .ok c ∧ validElem c ∧ ofCell c = g (ofCell a) (ofCell b))
    (hg : ∀ p q, g p q = g q p) (ha : validElem a) (hb : validElem b) : op a b = op b a := by
  obtain ⟨d, hd, hdv, hofd⟩ := hop a b ha hb
  obtain ⟨e, he, hev, hofe⟩ := hop b a hb ha
  have hde : d = e := ofCell_injective hdv hev (by rw [hofd, hofe, hg])
  rw [hd, he, hde]

/-- Settles O19: the laws are those of the ring. -/
theorem productAndSumAreCommutativeAndAssociative : Obligations.ProductAndSumAreCommutativeAndAssociative := by
  intro a b c ha hb hc
  have hmul (a b : Cell) := addExponents_ofCell (a := a) (b := b)
  have hadd (a b : Cell) := combine_ofCell (a := a) (b := b)
  refine ⟨comm_of_ofCell hmul mul_comm ha hb, comm_of_ofCell hadd add_comm ha hb,
    bind_assoc_of_ofCell hmul mul_assoc ha hb hc, bind_assoc_of_ofCell hadd add_assoc ha hb hc, ?_, ?_⟩
  · obtain ⟨d, hd, hdv, hof⟩ := addExponents_ofCell ha (validElem_of_le (e := 0) (by decide))
    rw [hd, ofCell_injective hdv ha (by rw [hof, ofCell_exponent_zero, mul_one])]
  · obtain ⟨d, hd, hdv, hof⟩ := combine_ofCell ha ha
    rw [hd, ofCell_injective hdv validElem_zeroElem (by rw [hof, add_self, ofCell_zeroElem])]

/-- Settles O20: both sides read as the same element of the ring. -/
theorem productDistributesOverSum : Obligations.ProductDistributesOverSum := by
  intro a b c ha hb hc
  obtain ⟨sum, hsum, hsumv, hofsum⟩ := combine_ofCell hb hc
  obtain ⟨ab, hab, habv, hofab⟩ := addExponents_ofCell ha hb
  obtain ⟨ac, hac, hacv, hofac⟩ := addExponents_ofCell ha hc
  obtain ⟨r, hr, hrv, hofr⟩ := addExponents_ofCell ha hsumv
  obtain ⟨r', hr', hrv', hofr'⟩ := combine_ofCell habv hacv
  have hrr : r' = r := ofCell_injective hrv' hrv (by rw [hofr, hofr', hofsum, hofab, hofac, mul_add])
  exact ⟨sum, ab, ac, r, hsum, hab, hac, hr, hrr ▸ hr'⟩

end Sys2Proof.FieldModel
end

section
/-! PROOFS. The generator (R153 to R157): a polynomial file read as a polynomial over GF(256), each pass as the
multiplication by x + alpha^i, so that `build_generator(n)` is the product of x + alpha^i over i < n. -/

namespace Sys2Proof.GeneratorPolynomial

open Sys2Proof.Machine Sys2Proof.Laws Sys2Proof.Safety Sys2Proof.Reference Sys2Proof.FieldModel
open Polynomial

variable {s : State} {G P Q : PolyFile} {n i : Nat}

/-! ## Polynomial files as polynomials -/

/-- Cell k is the coefficient of x^k (R13). -/
noncomputable def polyOf (P : PolyFile) : GF[X] := ∑ k ∈ Finset.range P.length, monomial k (ofCell (polyCell P k))

theorem polyOf_coeff (P : PolyFile) (k : Nat) : (polyOf P).coeff k = ofCell (polyCell P k) := by
  rw [polyOf, finsetSum_coeff]
  simp only [coeff_monomial, Finset.sum_ite_eq', Finset.mem_range]
  split
  · rfl
  · next h => rw [EncodeCommand.polyCell_of_length_le (by omega), ofCell_zeroElem]

/-- A cell is read off the coefficient. -/
theorem polyCell_eq_of_coeff {c : Cell} {k : Nat} (hP : ValidPoly P) (hc : validElem c)
    (h : (polyOf P).coeff k = ofCell c) : polyCell P k = c :=
  ofCell_injective (polyCell_valid hP.valid k) hc ((polyOf_coeff P k).symm.trans h)

theorem polyCell_eq_zeroElem {k : Nat} (hP : ValidPoly P) (h : (polyOf P).coeff k = 0) :
    polyCell P k = Config.zeroElem :=
  polyCell_eq_of_coeff hP validElem_zeroElem (h.trans ofCell_zeroElem.symm)

/-! ## The product of the linear factors -/

/-- g_n(x) = (x + alpha^0) ... (x + alpha^(n-1)) (R152). -/
noncomputable def generator (n : Nat) : GF[X] := ∏ k ∈ Finset.range n, (X + C (α ^ k))

theorem generator_succ (n : Nat) : generator (n + 1) = generator n * (X + C (α ^ n)) :=
  Finset.prod_range_succ _ n

theorem generator_monic (n : Nat) : (generator n).Monic := monic_prod_of_monic _ _ fun k _ => monic_X_add_C (α ^ k)

theorem generator_natDegree (n : Nat) : (generator n).natDegree = n := by
  have := gf_nontrivial
  rw [generator, natDegree_prod_of_monic _ _ fun k _ => monic_X_add_C (α ^ k)]
  simp only [natDegree_X_add_C, Finset.sum_const, Finset.card_range, smul_eq_mul, mul_one]

theorem generator_coeff_self (n : Nat) : (generator n).coeff n = 1 := by
  have h := (generator_monic n).coeff_natDegree
  rwa [generator_natDegree] at h

theorem generator_coeff_above {k : Nat} (h : n < k) : (generator n).coeff k = 0 :=
  coeff_eq_zero_of_natDegree_lt (by rwa [generator_natDegree])

/-- alpha^i is a root: its own factor vanishes, as alpha^i + alpha^i = 0. -/
theorem generator_eval (hi : i < n) : (generator n).eval (α ^ i) = 0 := by
  rw [generator, eval_prod]
  refine Finset.prod_eq_zero (Finset.mem_range.2 hi) ?_
  rw [eval_add, eval_X, eval_C, add_self]

/-- The constant coefficient is the product of the alpha^i: its exponent is 0 + 1 + ... + (n-1) (R155). -/
theorem generator_coeff_zero (n : Nat) : (generator n).coeff 0 = α ^ (n * (n - 1) / 2) := by
  rw [coeff_zero_eq_eval_zero, generator, eval_prod, ← Finset.sum_range_id, ← Finset.prod_pow_eq_pow_sum]
  refine Finset.prod_congr rfl fun k _ => ?_
  rw [eval_add, eval_X, eval_C, zero_add]

/-! ## The build (R153) -/

theorem ofNat_toNat_of_le (hi : i ≤ 254) : (BitVec.ofNat 16 i).toNat = i := by
  rw [BitVec.toNat_ofNat, Nat.mod_eq_of_lt (by omega)]

theorem ofCell_of_generatorLane {a b c : Cell} (hi : i ≤ 254) (ha : validElem a) (hb : validElem b)
    (h : generatorLane i a b = .ok c) : ofCell c = ofCell a * α ^ i + ofCell b := by
  have hle : (BitVec.ofNat 16 i).toNat ≤ 254 := by rwa [ofNat_toNat_of_le hi]
  obtain ⟨m, hm, hmv, hofm⟩ := addExponents_ofCell ha (validElem_of_le hle)
  have hc : combine m b = .ok c := by
    rw [generatorLane, hm] at h
    exact h
  rw [ofCell_of_combine hmv hb hc, hofm, ofCell_exponent hle, ofNat_toNat_of_le hi]

/-- A pass multiplies by x + alpha^i: every lane adds to its cell times alpha^i the cell below (R161). -/
theorem generatorPass_polyOf (hi : i ≤ 253) (hG : ValidPoly G) (hgen : polyOf G = generator i) :
    ∃ G', generatorPass i G = .ok G' ∧ ValidPoly G' ∧ polyOf G' = generator (i + 1) := by
  obtain ⟨G', hpass, hvalid, hlanes, hkept⟩ := generatorPass_spec hi hG
  refine ⟨G', hpass, hvalid, ?_⟩
  have hlane (j : Nat) (hj : j ≤ i + 1) {low : Cell} (hlow : validElem low)
      (hcell : (if j = 0 then Config.zeroElem else polyCell G (j - 1)) = low) :
      ofCell (polyCell G' j) = ofCell (polyCell G j) * α ^ i + ofCell low :=
    ofCell_of_generatorLane (by omega) (polyCell_valid hG.valid j) hlow (hcell ▸ hlanes j hj)
  rw [generator_succ, ← hgen]
  ext j
  rw [mul_add, coeff_add, coeff_mul_C]
  cases j with
  | zero =>
    rw [mul_coeff_zero, coeff_X_zero, mul_zero, polyOf_coeff, polyOf_coeff, hlane 0 (by omega) validElem_zeroElem rfl,
      ofCell_zeroElem, add_comm]
  | succ j =>
    rw [coeff_mul_X, polyOf_coeff]
    rcases Nat.lt_or_ge (i + 1) (j + 1) with habove | hin
    · rw [hkept _ habove, ← polyOf_coeff, hgen, generator_coeff_above (by omega), generator_coeff_above (by omega),
        zero_mul, add_zero]
    · rw [hlane (j + 1) hin (polyCell_valid hG.valid j) (by simp), polyOf_coeff, polyOf_coeff, add_comm]

theorem generatorPasses_polyOf (count i : Nat) (hi : i + count ≤ 254) (hG : ValidPoly G)
    (hgen : polyOf G = generator i) :
    ∃ G', generatorPasses count i G = .ok G' ∧ ValidPoly G' ∧ polyOf G' = generator (i + count) := by
  induction count generalizing i G with
  | zero => exact ⟨G, rfl, hG, hgen⟩
  | succ count ih =>
    obtain ⟨G₁, hpass, hvalid₁, hgen₁⟩ := generatorPass_polyOf (by omega) hG hgen
    obtain ⟨G', hpasses, hvalid, hgen'⟩ := ih (i + 1) (by omega) hvalid₁ hgen₁
    refine ⟨G', ?_, hvalid, ?_⟩
    · rw [generatorPasses, hpass]
      exact hpasses
    · rw [hgen', Nat.add_right_comm, Nat.add_assoc]

/-- g_0 of R153, x + alpha^0. -/
theorem generatorStart_polyOf : polyOf generatorStart = generator 1 := by
  rw [generator, Finset.prod_range_one, pow_zero, C_1]
  ext k
  rw [polyOf_coeff, generatorStart, EncodeCommand.polyCell_append_zeroCells, coeff_add, coeff_X, coeff_one]
  match k with
  | 0 => simpa [polyCell] using ofCell_exponent_zero
  | 1 => simpa [polyCell] using ofCell_exponent_zero
  | k + 2 => simp [polyCell]

/-- `build_generator(n)` is the product of the n linear factors. -/
theorem buildGenerator_polyOf (hn : 1 ≤ n ∧ n ≤ 254) :
    ∃ G, buildGenerator n = .ok G ∧ ValidPoly G ∧ polyOf G = generator n := by
  obtain ⟨G, hG, hvalid, hgen⟩ := generatorPasses_polyOf (n - 1) 1 (by omega) generatorStart_valid
    generatorStart_polyOf
  exact ⟨G, hG, hvalid, by rw [hgen, Nat.add_sub_of_le hn.1]⟩

/-! ## GENPOLY -/

theorem exec_genpoly_generator (hs : s.halt = false) (hn : genpolyLegal s) :
    ∃ G, exec .genpoly s = .next (s.setPg G).complete ∧ ValidPoly G ∧ polyOf G = generator s.ncw.toNat := by
  obtain ⟨G, hG, hvalid, hgen⟩ := buildGenerator_polyOf hn
  exact ⟨G, exec_ok hs (Noninterference.genpolyBody_legal hn hG), hvalid, hgen⟩

/-- What GENPOLY leaves in `PG`. -/
theorem readPg_genpoly {k : Nat} (hG : ValidPoly G) (hk : k < 255) : readPg (s.setPg G).complete k = polyCell G k := by
  have hk : k < G.length := hG.length.symm ▸ hk
  rw [EncodeCommand.polyCell_of_lt hk]
  exact readPg_setPg hk s

/-- Settles O27: the product of n monic linear factors is monic of degree n. -/
theorem genpolyBuildsAMonicPolynomial : Obligations.GenpolyBuildsAMonicPolynomial := by
  intro s hs hn
  obtain ⟨G, hexec, hvalid, hgen⟩ := exec_genpoly_generator hs hn
  refine ⟨_, hexec, rfl, ?_, fun k hk hlt => ?_, fun k hlt => ?_⟩
  · rw [readPg_genpoly hvalid (by omega)]
    exact polyCell_eq_of_coeff hvalid (validElem_of_le (by decide))
      (by rw [hgen, generator_coeff_self, ofCell_exponent_zero])
  · rw [readPg_genpoly hvalid hlt]
    exact polyCell_eq_zeroElem hvalid (by rw [hgen, generator_coeff_above hk])
  · rw [readPg_genpoly hvalid hlt]
    exact polyCell_valid hvalid.valid k

/-- Settles O28: the exponents 0, ..., n-1 of the roots add up to n(n-1)/2. -/
theorem generatorConstantCoefficient : Obligations.GeneratorConstantCoefficient := by
  constructor
  · intro s hs hn
    obtain ⟨G, hexec, hvalid, hgen⟩ := exec_genpoly_generator hs hn
    refine ⟨_, hexec, ?_⟩
    rw [readPg_genpoly hvalid (by decide), polyCell_eq_of_coeff hvalid (validElem_of_le (ofNat_mod_le _))
      (by rw [hgen, generator_coeff_zero, ofCell_ofNat_mod]), ofNat_mod_toNat]
  · have hvalues : ∀ n < 255, 1 ≤ n →
        (n * (n - 1) / 2 % 255 = 0 ↔ n ∈ [1, 51, 85, 120, 136, 171, 205]) := by decide +kernel
    exact fun n hn hle => hvalues n (by omega) hn

/-- R157's recipe evaluates the polynomial at alpha^i: it does not fault, and gives the sum of the terms. -/
theorem evalCells_ofCell (F : Nat → Cell) (i m : Nat) (hF : ∀ k < m, validElem (F k)) :
    ∃ c, (List.range m).foldlM (fun acc k => (addExponents (F k) (BitVec.ofNat 16 (i * k % 255))).bind
        fun term => combine acc term) Config.zeroElem = .ok c ∧ validElem c ∧
      ofCell c = ∑ k ∈ Finset.range m, ofCell (F k) * (α ^ i) ^ k := by
  induction m with
  | zero => exact ⟨_, rfl, validElem_zeroElem, ofCell_zeroElem⟩
  | succ m ih =>
    obtain ⟨c, hfold, hc, hofc⟩ := ih fun k hk => hF k (by omega)
    obtain ⟨term, hterm, htv, hoft⟩ := addExponents_ofCell (hF m (by omega))
      (validElem_of_le (ofNat_mod_le (i * m)))
    obtain ⟨d, hd, hdv, hofd⟩ := combine_ofCell hc htv
    refine ⟨d, ?_, hdv, ?_⟩
    · rw [List.range_succ, List.foldlM_append, hfold]
      simp only [bind, Except.bind, List.foldlM_cons, List.foldlM_nil, hterm, hd]
      rfl
    · rw [Finset.sum_range_succ, hofd, hofc, hoft, ofCell_ofNat_mod, pow_mul]

/-- Settles O29: the recipe evaluates the generator at one of its roots. -/
theorem generatorVanishesAtItsRoots : Obligations.GeneratorVanishesAtItsRoots := by
  intro s hs hn
  obtain ⟨G, hexec, hvalid, hgen⟩ := exec_genpoly_generator hs hn
  refine ⟨_, hexec, fun i hi => ?_⟩
  have hcell (k : Nat) (hk : k < s.ncw.toNat + 1) : readPg (s.setPg G).complete k = polyCell G k :=
    readPg_genpoly hvalid (by omega)
  obtain ⟨c, hfold, hc, hofc⟩ := evalCells_ofCell (readPg (s.setPg G).complete) i (s.ncw.toNat + 1)
    fun k hk => hcell k hk ▸ polyCell_valid hvalid.valid k
  have hzero : ofCell c = 0 := by
    calc ofCell c
      _ = ∑ k ∈ Finset.range (s.ncw.toNat + 1), (polyOf G).coeff k * (α ^ i) ^ k := by
        rw [hofc]
        exact Finset.sum_congr rfl fun k hk => by rw [hcell k (Finset.mem_range.1 hk), polyOf_coeff]
      _ = (generator s.ncw.toNat).eval (α ^ i) := by
        rw [hgen, eval_eq_sum_range' (by rw [generator_natDegree]; exact Nat.lt_succ_self _)]
      _ = 0 := generator_eval hi
  rw [evalCells, hfold, ofCell_injective hc validElem_zeroElem (hzero.trans ofCell_zeroElem.symm)]

end Sys2Proof.GeneratorPolynomial
end

section
/-! PROOFS. The division (R176 to R183) and the codeword (R186): every iteration adds a multiple of the generator that
clears the leading cell, so what is left is a remainder below degree n, congruent to the shifted message. -/

namespace Sys2Proof.Division

open Sys2Proof.Machine Sys2Proof.Laws Sys2Proof.Safety Sys2Proof.Reference Sys2Proof.FieldModel
open Sys2Proof.GeneratorPolynomial
open Polynomial

variable {G M P PM R : PolyFile} {n cur : Nat}

/-! ## One iteration -/

/-- The shift is multiplication by x^s, when no cell is moved out of the file (R174). -/
theorem polyShift_polyOf {s : Nat} (hP : ValidPoly P) (hfit : ∀ k, 255 ≤ k + s → polyCell P k = Config.zeroElem) :
    polyOf (polyShift P s) = polyOf P * X ^ s := by
  ext k
  rw [coeff_mul_X_pow', polyOf_coeff, polyOf_coeff]
  rcases Nat.lt_or_ge k 255 with hin | hout
  · rw [polyShift_cell P s k hin]
    split
    · rfl
    · exact ofCell_zeroElem
  · rw [EncodeCommand.polyCell_of_length_le ((polyShift_valid hP s).length.trans_le hout), ofCell_zeroElem]
    split
    · rw [hfit _ (by omega), ofCell_zeroElem]
    · rfl

/-- An iteration adds the generator, shifted to the tracked degree and scaled by the leading cell (R178 to R180). -/
theorem divideStep_polyOf (hG : ValidPoly G) (hgen : polyOf G = generator n) (hM : ValidPoly PM) (hn : n ≤ cur)
    (hcur : cur ≤ 254) :
    ∃ PM', divideStep G n PM cur = .ok PM' ∧ ValidPoly PM' ∧
      polyOf PM' = polyOf PM + generator n * X ^ (cur - n) * C ((polyOf PM).coeff cur) := by
  obtain ⟨PT, PM', hstep, hPT, hPM', hscale, hadd⟩ := divideStep_spec hG hM n cur
  refine ⟨PM', hstep, hPM', ?_⟩
  have hshift : polyOf (polyShift G (cur - n)) = generator n * X ^ (cur - n) := by
    rw [polyShift_polyOf hG fun k hk => ?_, hgen]
    exact polyCell_eq_zeroElem hG (by rw [hgen, generator_coeff_above (by omega)])
  rw [← hshift]
  ext k
  rw [coeff_add, coeff_mul_C, polyOf_coeff, polyOf_coeff, polyOf_coeff, polyOf_coeff]
  have hSv := polyShift_valid hG (cur - n)
  rcases Nat.lt_or_ge k 255 with hin | hout
  · rw [ofCell_of_combine (polyCell_valid hM.valid k) (polyCell_valid hPT.valid k) (hadd k hin),
      ofCell_of_addExponents (polyCell_valid hSv.valid k) (polyCell_valid hM.valid cur) (hscale k hin)]
  · have habove {F : PolyFile} (hF : ValidPoly F) : polyCell F k = Config.zeroElem :=
      EncodeCommand.polyCell_of_length_le (hF.length.trans_le hout)
    rw [habove hPM', habove hM, habove hSv, ofCell_zeroElem, zero_mul, add_zero]

/-- The generator is monic, so the iteration clears the cell at the tracked degree, and it touches none above it. -/
theorem coeff_after_step {p : GF[X]} (hn : n ≤ cur) (hp : ∀ k, cur < k → p.coeff k = 0) {k : Nat} (hk : cur ≤ k) :
    (p + generator n * X ^ (cur - n) * C (p.coeff cur)).coeff k = 0 := by
  rw [coeff_add, coeff_mul_C, coeff_mul_X_pow', if_pos (by omega)]
  rcases Nat.eq_or_lt_of_le hk with rfl | hlt
  · rw [Nat.sub_sub_self hn, generator_coeff_self, one_mul, add_self]
  · rw [hp k hlt, generator_coeff_above (by omega), zero_mul, add_zero]

/-! ## The whole division -/

/-- From the tracked degree `n + count - 1` down to `n`: the cells from `n` up are cleared, by multiples of the
generator (R181 to R183). -/
theorem divideLoop_polyOf (count : Nat) (hG : ValidPoly G) (hgen : polyOf G = generator n) (hM : ValidPoly PM)
    (hcap : n + count ≤ 255) (hcur : cur = n + count - 1)
    (htop : ∀ k, n + count ≤ k → (polyOf PM).coeff k = 0) :
    ∃ R, divideLoop G n count PM cur = .ok R ∧ ValidPoly R ∧ (∀ k, n ≤ k → (polyOf R).coeff k = 0) ∧
      ∃ q, polyOf R = polyOf PM + generator n * q := by
  induction count generalizing PM cur with
  | zero => exact ⟨PM, rfl, hM, htop, 0, by rw [mul_zero, add_zero]⟩
  | succ count ih =>
    obtain ⟨PM', hstep, hPM', hpoly⟩ := divideStep_polyOf (PM := PM) (cur := cur) hG hgen hM (by omega) (by omega)
    have htop' : ∀ k, n + count ≤ k → (polyOf PM').coeff k = 0 := fun k hk => by
      rw [hpoly]
      exact coeff_after_step (by omega) (fun j hj => htop j (by omega)) (by omega)
    obtain ⟨R, hloop, hR, hclear, q, hq⟩ := ih (cur := cur - 1) hPM' (by omega) (by omega) htop'
    refine ⟨R, ?_, hR, hclear, X ^ (cur - n) * C ((polyOf PM).coeff cur) + q, ?_⟩
    · rw [divideLoop, hstep]
      exact hloop
    · rw [hq, hpoly]
      ring

/-- `divide` of a polynomial with no cell below `n`, as every shifted one is: it leaves no cell from `n` up, and what
it leaves differs from the polynomial by a multiple of the generator (R176 to R183). -/
theorem divide_polyOf (hG : ValidPoly G) (hgen : polyOf G = generator n) (hM : ValidPoly M)
    (hlow : ∀ k < n, polyCell M k = Config.zeroElem) :
    ∃ R, divide M G n = .ok R ∧ ValidPoly R ∧ (∀ k, n ≤ k → polyCell R k = Config.zeroElem) ∧
      ∃ q, polyOf R = polyOf M + generator n * q := by
  cases hdeg : degree M with
  | none =>
    have hzero := degree_eq_none.1 hdeg
    refine ⟨M, by simp only [divide, hdeg], hM, fun k _ => ?_, 0, by rw [mul_zero, add_zero]⟩
    rcases Nat.lt_or_ge k M.length with hin | hout
    · rw [EncodeCommand.polyCell_of_lt hin]
      exact hzero _ (List.getElem_mem hin)
    · exact EncodeCommand.polyCell_of_length_le hout
  | some d =>
    obtain ⟨htop, habove⟩ := degree_eq_some hdeg
    have hnd : n ≤ d := Nat.le_of_not_lt fun h => htop (hlow d h)
    have hd : d < 255 := Nat.lt_of_not_le fun h =>
      htop (EncodeCommand.polyCell_of_length_le (hM.length.trans_le h))
    obtain ⟨R, hloop, hR, hclear, hq⟩ := divideLoop_polyOf (cur := d) (d - n + 1) hG hgen hM (by omega) (by omega)
      fun k hk => by rw [polyOf_coeff, habove k (by omega), ofCell_zeroElem]
    exact ⟨R, by simpa only [divide, hdeg] using hloop, hR, fun k hk => polyCell_eq_zeroElem hR (hclear k hk), hq⟩

theorem polyShift_below (P : PolyFile) (hn : n ≤ 255) {k : Nat} (hk : k < n) :
    polyCell (polyShift P n) k = Config.zeroElem := by
  rw [polyShift_cell P n k (by omega), if_neg (by omega)]

/-- Settles O39: the shifted polynomial has no cell below `n`, so the division clears the cells from `n` up. -/
theorem divisionLeavesARemainderBelowN : Obligations.DivisionLeavesARemainderBelowN := by
  intro n P hn hn' hP _
  obtain ⟨G, hbuild, hG, hgen⟩ := buildGenerator_polyOf ⟨hn, hn'⟩
  obtain ⟨R, hdivide, hR, hclear, -⟩ := divide_polyOf hG hgen (polyShift_valid hP n)
    fun k hk => polyShift_below P (by omega) hk
  exact ⟨G, R, hbuild, hdivide, hR, hclear⟩

/-! ## Bytes as a polynomial -/

/-- A sequence of bytes as a polynomial, its first byte the highest coefficient (R186). -/
noncomputable def bytesPoly (bytes : List Byte) : GF[X] :=
  bytes.foldl (fun acc b => acc * X + C (ofByte b)) 0

theorem bytesPoly_concat (bytes : List Byte) (b : Byte) : bytesPoly (bytes ++ [b]) = bytesPoly bytes * X + C (ofByte b) := by
  rw [bytesPoly, List.foldl_append]
  rfl

/-- The statement's evaluation in byte arithmetic is the evaluation of the polynomial. -/
theorem ofByte_evalBytes (bytes : List Byte) (i : Nat) : ofByte (evalBytes bytes i) = (bytesPoly bytes).eval (α ^ i) := by
  induction bytes using List.reverseRecOn with
  | nil => exact ofByte_zero.trans eval_zero.symm
  | append_singleton bytes b ih =>
    rw [bytesPoly_concat, eval_add, eval_mul, eval_X, eval_C, ← ih, evalBytes, List.foldl_append]
    simp only [List.foldl_cons, List.foldl_nil]
    rw [ofByte_xor, ofByte_byteMul, ofByte_alphaPow]
    rfl

theorem bytesPoly_append (front back : List Byte) :
    bytesPoly (front ++ back) = bytesPoly front * X ^ back.length + bytesPoly back := by
  induction back using List.reverseRecOn with
  | nil => simp [bytesPoly]
  | append_singleton back b ih =>
    rw [← List.append_assoc, bytesPoly_concat, bytesPoly_concat, ih, List.length_append, List.length_singleton]
    ring

/-- The coefficients, from the last byte back. -/
theorem bytesPoly_coeff (bytes : List Byte) (k : Nat) :
    (bytesPoly bytes).coeff k = if h : k < bytes.length then ofByte bytes[bytes.length - 1 - k] else 0 := by
  induction bytes using List.reverseRecOn generalizing k with
  | nil => simp [bytesPoly]
  | append_singleton bytes b ih =>
    rw [bytesPoly_concat, coeff_add, coeff_C]
    cases k with
    | zero => simp
    | succ k =>
      rw [coeff_mul_X, ih, if_neg (Nat.succ_ne_zero k), add_zero]
      by_cases hk : k < bytes.length
      · have hback : bytes.length + 1 - 1 - (k + 1) = bytes.length - 1 - k := by omega
        simp only [List.length_append, List.length_singleton, hback]
        rw [dif_pos hk, dif_pos (by omega), List.getElem_append_left]
      · simp [hk]

/-- The file is the polynomial of the bytes, if its cells are those bytes from the last one back, and `ZERO` above. -/
theorem bytesPoly_eq_polyOf {bytes : List Byte}
    (hcell : ∀ (k : Nat) (hk : k < bytes.length), ofCell (polyCell P k) = ofByte bytes[bytes.length - 1 - k])
    (habove : ∀ k, bytes.length ≤ k → polyCell P k = Config.zeroElem) : bytesPoly bytes = polyOf P := by
  ext k
  rw [bytesPoly_coeff, polyOf_coeff]
  split
  · next hk => rw [hcell k hk]
  · next hk => rw [habove k (by omega), ofCell_zeroElem]

/-- The loaded message is the polynomial of its bytes (R173). -/
theorem bytesPoly_message {bytes : List Byte} (h : loadMessage bytes = .ok M) : bytesPoly bytes = polyOf M := by
  obtain ⟨habove, hbyte⟩ := EncodeCommand.loadMessage_cells h
  refine bytesPoly_eq_polyOf (fun k hk => ?_) habove
  have hcell := hbyte (bytes.length - 1 - k) (by omega)
  rw [show bytes.length - 1 - (bytes.length - 1 - k) = k by omega] at hcell
  exact (ofCell_of_toExponent hcell).2

/-- The codewords are the polynomial of the remainder (R184). -/
theorem bytesPoly_codewords {bytes : List Byte} (hR : ValidPoly R) (hn : n ≤ 255)
    (hclear : ∀ k, n ≤ k → polyCell R k = Config.zeroElem) (h : extractCodewords R n = .ok bytes) :
    bytesPoly bytes = polyOf R := by
  have htake : (R.take n).length = n := by rw [List.length_take, hR.length, Nat.min_eq_left hn]
  have hlen : bytes.length = n := by rw [mapLanes_length h, List.length_reverse, htake]
  refine bytesPoly_eq_polyOf (fun k hk => ?_) fun k hk => hclear k (hlen ▸ hk)
  have hlane := mapLanes_lane h (bytes.length - 1 - k) (by rw [List.length_reverse, htake]; omega)
  have hback : n - 1 - (bytes.length - 1 - k) = k := by omega
  simp only [List.getElem_reverse, List.getElem_take, htake, hback] at hlane
  have hin : k < R.length := by rw [hR.length]; omega
  rw [← EncodeCommand.polyCell_of_lt hin] at hlane
  obtain ⟨x, hx, hof⟩ := toValue_ofByte (polyCell_valid hR.valid k)
  cases hlane.symm.trans hx
  exact hof.symm

/-! ## The codeword (R186) -/

/-- Message and codewords are the shifted message plus its remainder: a multiple of the generator, as the sum of two
equal terms is 0. So every root of the generator is a root of it. -/
theorem eval_codeword {p r q : GF[X]} {i : Nat} (hi : i < n) (hr : r = p + generator n * q) :
    (p + r).eval (α ^ i) = 0 := by
  rw [hr, eval_add, eval_add, eval_mul, generator_eval hi, zero_mul, add_zero, add_self]

/-- Settles O33: the generator vanishes at its roots, and the message with its codewords is a multiple of it. -/
theorem encodeMakesASystematicCodeword : Obligations.EncodeMakesASystematicCodeword := by
  intro s hs hn
  obtain ⟨G, M, R, bytes, h⟩ := CommandFrames.exists_encodeRun hn
  obtain ⟨hn1, hL1, hcap⟩ := hn
  obtain ⟨G', hbuild, -, hgen⟩ := buildGenerator_polyOf (n := s.ncw.toNat) ⟨hn1, by omega⟩
  cases h.generator.symm.trans hbuild
  obtain ⟨R', hdivide, -, hclear, q, hq⟩ := divide_polyOf h.generatorValid hgen
    (polyShift_valid h.messageValid s.ncw.toNat) fun k hk => polyShift_below M (by omega) hk
  cases h.remainder.symm.trans hdivide
  have hshift : polyOf (polyShift M s.ncw.toNat) = polyOf M * X ^ s.ncw.toNat := by
    refine polyShift_polyOf h.messageValid fun k hk => ?_
    exact (EncodeCommand.loadMessage_cells h.message).1 k (by rw [messageBytes_length]; omega)
  have hecc : (List.range s.ncw.toNat).map (readEcc (CommandFrames.encoded s G bytes)) = bytes := by
    refine List.ext_getElem (by simp [h.codewordsLength]) fun k _ hk => ?_
    rw [List.getElem_map, List.getElem_range, CommandFrames.readEcc_encoded hk]
  refine ⟨_, CommandFrames.exec_encode_legal hs ⟨hn1, hL1, hcap⟩ h, fun _ => rfl, fun i hi => ofByte_injective ?_⟩
  rw [hecc, ofByte_zero, ofByte_evalBytes, bytesPoly_append, bytesPoly_message h.message,
    bytesPoly_codewords h.remainderValid (by omega) hclear h.codewords, h.codewordsLength, ← hshift]
  exact eval_codeword hi hq

end Sys2Proof.Division
end
